-- ==== Sys2Proof/Word.lean ====
section
/-! DEFINITION. The widths of this machine: byte, word, opcode, register index (spec/00_scope.md R3, R9). -/

namespace Sys2Proof

/-- An 8-bit unsigned value: a general register, a timer, a cell of main memory (R3). -/
abbrev Byte := BitVec 8

/-- A 16-bit unsigned value: `pc`, `I`, an entry of the return stack (R3). -/
abbrev Word := BitVec 16

/-- A 16-bit instruction word, bits 15..0 (R9, R46). -/
abbrev Opcode := BitVec 16

/-- The index of a general register `V[0]` .. `V[15]`, named by an `X` or `Y` field (R13, R46). -/
abbrev Reg := Fin 16

/-- The number of a key 0..F (R21). -/
abbrev Key := Fin 16

end Sys2Proof
end

