-- ==== Sys2Proof/Config.lean ====
section
/-! DEFINITION. What is fixed for the machine and is not state: the sizes (R3), the open parameters FONT and
SPRITE_EDGE (R4), the events the host issues (R6, R8), and the free values (the random byte, the host's choice of
events). The default values of the parameters stand in Sys2Proof/Machine/Params.lean. -/

namespace Sys2Proof.Config

/-- `MEM_SIZE`: main memory is `mem[0..4095]` (R3, R31). -/
abbrev memSize : Nat := 4096

/-- `FONT_SIZE`: the font copy is `mem[0..79]` after reset (R3, R27). -/
abbrev fontSize : Nat := 80

/-- `GLYPH_SIZE`: one hexadecimal glyph is 5 bytes (R3, R27). -/
abbrev glyphSize : Nat := 5

/-- `PROG_ORIGIN`: `pc` after reset, and where an image is loaded (R3, R43). -/
abbrev progOrigin : Nat := 512

/-- `MAX_IMAGE`: 4096 - 512 (R3, R43). -/
abbrev maxImage : Nat := 3584

/-- `STACK_DEPTH` (R3, R17). -/
abbrev stackDepth : Nat := 16

/-- `DISP_W`: columns of the display (R3, R22). -/
abbrev dispW : Nat := 64

/-- `DISP_H`: rows of the display (R3, R22). -/
abbrev dispH : Nat := 32

/-- The parameter `SPRITE_EDGE` (R4, R99): what becomes of sprite pixels past the right or bottom edge. -/
inductive SpriteEdge where
  /-- Pixels past the edge are not drawn (the spec's default). -/
  | clip
  /-- Each pixel wraps to the opposite side. -/
  | wrap
deriving DecidableEq, Repr

/-- The font table: 80 bytes, 5 per glyph, glyphs in digit order (R27). -/
abbrev Font := Vector Byte 80

/-- The open parameters of the machine: the font table (R27; D17) and `SPRITE_EDGE` (R99; D13). -/
structure Params where
  font : Font
  edge : SpriteEdge
deriving DecidableEq, Repr

/-- FREE VALUE (R4, R88; log entry 4). The random byte that comes with a CPU tick of a host with nothing queued, `n` free
values having been used before. It has no body: no proof can know a value of it. -/
opaque freeRnd : Nat → Byte

end Sys2Proof.Config

namespace Sys2Proof.Machine

/-- An event the host issues (R6, R8). -/
inductive HostEvent where
  /-- `reset` (R127). -/
  | reset
  /-- `load_image(bytes)` (R43). -/
  | loadImage (bytes : List Byte)
  /-- `key_set(k, v)` (R120). -/
  | keySet (k : Key) (v : Bool)
  /-- `cpu_tick(rnd)` (R56). -/
  | cpuTick (rnd : Byte)
  /-- `timer_tick` (R118). -/
  | timerTick
  /-- `display_read` (R121). -/
  | displayRead
deriving DecidableEq, Repr, Inhabited

/-- What the host does, without end, once the events it has queued are taken (R6: a run is a finite or infinite
sequence of events chosen by the host; log entry 5). -/
inductive Idle where
  /-- It issues CPU ticks, each with a free random byte. -/
  | cpuTicks
  /-- It issues `first` and then `others`, over and over. -/
  | repeats (first : HostEvent) (others : List HostEvent)
  /-- It issues any events at all: those of `Config.freeEvent`. -/
  | free
deriving DecidableEq, Repr

end Sys2Proof.Machine

namespace Sys2Proof.Config

/-- FREE VALUE (R6; log entry 5). The event of a host nothing is known about, `n` free values having been
used before. It has no body, so it stands for every infinite sequence of events. -/
opaque freeEvent : Nat → Machine.HostEvent

end Sys2Proof.Config
end

