-- ==== Sys2Proof/Syntax.lean ====
section
/-! DEFINITION. The 35 instructions, one constructor per row of spec/opcode_table.json (R47), in the
table's order. Operands are typed by the width of their field (R46, R49), so a register index, an 8-bit,
a 4-bit or a 12-bit immediate is in range by its type. -/

namespace Sys2Proof

/-- An instruction (R47). The name in each docstring is the row's pattern and the spec's syntax (R55). -/
inductive Instr where
  /-- `0000` NOP -/
  | nop
  /-- `00E0` CLS -/
  | cls
  /-- `00EE` RET -/
  | ret
  /-- `1NNN` JP nnn -/
  | jp (nnn : BitVec 12)
  /-- `2NNN` CALL nnn -/
  | call (nnn : BitVec 12)
  /-- `3XNN` SE Vx, nn -/
  | seImm (x : Reg) (nn : Byte)
  /-- `4XNN` SNE Vx, nn -/
  | sneImm (x : Reg) (nn : Byte)
  /-- `5XY0` SE Vx, Vy -/
  | seReg (x y : Reg)
  /-- `6XNN` LD Vx, nn -/
  | ldImm (x : Reg) (nn : Byte)
  /-- `7XNN` ADD Vx, nn -/
  | addImm (x : Reg) (nn : Byte)
  /-- `8XY0` LD Vx, Vy -/
  | ldReg (x y : Reg)
  /-- `8XY1` OR Vx, Vy -/
  | orReg (x y : Reg)
  /-- `8XY2` AND Vx, Vy -/
  | andReg (x y : Reg)
  /-- `8XY3` XOR Vx, Vy -/
  | xorReg (x y : Reg)
  /-- `8XY4` ADD Vx, Vy -/
  | addReg (x y : Reg)
  /-- `8XY5` SUB Vx, Vy -/
  | subReg (x y : Reg)
  /-- `8XY6` SHR Vx; the `Y` field is decoded, kept here and ignored by the meaning (R51, R85) -/
  | shr (x y : Reg)
  /-- `8XY7` SUBN Vx, Vy -/
  | subnReg (x y : Reg)
  /-- `8XYE` SHL Vx; the `Y` field is decoded, kept here and ignored by the meaning (R51, R87) -/
  | shl (x y : Reg)
  /-- `9XY0` SNE Vx, Vy -/
  | sneReg (x y : Reg)
  /-- `ANNN` LD I, nnn -/
  | ldI (nnn : BitVec 12)
  /-- `BNNN` JP V0, nnn -/
  | jpV0 (nnn : BitVec 12)
  /-- `CXNN` RND Vx, nn -/
  | rnd (x : Reg) (nn : Byte)
  /-- `DXYN` DRW Vx, Vy, n -/
  | drw (x y : Reg) (n : BitVec 4)
  /-- `EX9E` SKP Vx -/
  | skp (x : Reg)
  /-- `EXA1` SKNP Vx -/
  | sknp (x : Reg)
  /-- `FX07` LD Vx, DT -/
  | ldVxDt (x : Reg)
  /-- `FX0A` LD Vx, K -/
  | ldVxK (x : Reg)
  /-- `FX15` LD DT, Vx -/
  | ldDtVx (x : Reg)
  /-- `FX18` LD ST, Vx -/
  | ldStVx (x : Reg)
  /-- `FX1E` ADD I, Vx -/
  | addI (x : Reg)
  /-- `FX29` LD F, Vx -/
  | ldF (x : Reg)
  /-- `FX33` LD B, Vx -/
  | ldB (x : Reg)
  /-- `FX55` LD [I], Vx -/
  | storeRegs (x : Reg)
  /-- `FX65` LD Vx, [I] -/
  | loadRegs (x : Reg)
deriving DecidableEq, Repr

end Sys2Proof
end

