-- ==== Sys2Proof/WellFormed.lean ====
section
/-! DEFINITION. Well-formedness of what is not in range by its type: an opcode word (it must match a row of
the opcode map, R47, R52) and a program image (it must fit, R43). The operands of an Instr need no check:
each has the width of its field (R46, R49). -/

namespace Sys2Proof

/-- One row of the opcode map: an opcode selects it iff `(op & mask) = bits` (R47). -/
structure Row where
  mask : Opcode
  bits : Opcode
deriving DecidableEq, Repr

/-- `op` selects the row (R47). -/
def Row.selects (r : Row) (op : Opcode) : Bool := (op &&& r.mask) == r.bits

/-- Rows 1 to 5 of the opcode map (R47). -/
def controlRows : List Row :=
  [⟨0xFFFF, 0x0000⟩,
   ⟨0xFFFF, 0x00E0⟩,
   ⟨0xFFFF, 0x00EE⟩,
   ⟨0xF000, 0x1000⟩,
   ⟨0xF000, 0x2000⟩]

/-- Rows 6 to 10 of the opcode map (R47). -/
def skipLoadRows : List Row :=
  [⟨0xF000, 0x3000⟩,
   ⟨0xF000, 0x4000⟩,
   ⟨0xF00F, 0x5000⟩,
   ⟨0xF000, 0x6000⟩,
   ⟨0xF000, 0x7000⟩]

/-- Rows 11 to 20 of the opcode map (R47). -/
def aluRows : List Row :=
  [⟨0xF00F, 0x8000⟩,
   ⟨0xF00F, 0x8001⟩,
   ⟨0xF00F, 0x8002⟩,
   ⟨0xF00F, 0x8003⟩,
   ⟨0xF00F, 0x8004⟩,
   ⟨0xF00F, 0x8005⟩,
   ⟨0xF00F, 0x8006⟩,
   ⟨0xF00F, 0x8007⟩,
   ⟨0xF00F, 0x800E⟩,
   ⟨0xF00F, 0x9000⟩]

/-- Rows 21 to 26 of the opcode map (R47). -/
def indexDisplayRows : List Row :=
  [⟨0xF000, 0xA000⟩,
   ⟨0xF000, 0xB000⟩,
   ⟨0xF000, 0xC000⟩,
   ⟨0xF000, 0xD000⟩,
   ⟨0xF0FF, 0xE09E⟩,
   ⟨0xF0FF, 0xE0A1⟩]

/-- Rows 27 to 35 of the opcode map (R47). -/
def timerMemoryRows : List Row :=
  [⟨0xF0FF, 0xF007⟩,
   ⟨0xF0FF, 0xF00A⟩,
   ⟨0xF0FF, 0xF015⟩,
   ⟨0xF0FF, 0xF018⟩,
   ⟨0xF0FF, 0xF01E⟩,
   ⟨0xF0FF, 0xF029⟩,
   ⟨0xF0FF, 0xF033⟩,
   ⟨0xF0FF, 0xF055⟩,
   ⟨0xF0FF, 0xF065⟩]

/-- The opcode map, 35 rows in the order of R47: mask and match of each. -/
def opcodeTable : List Row :=
  controlRows ++ skipLoadRows ++ aluRows ++ indexDisplayRows ++ timerMemoryRows

/-- The row of R47 an instruction belongs to. -/
def Instr.row : Instr → Row
  | .nop => ⟨0xFFFF, 0x0000⟩
  | .cls => ⟨0xFFFF, 0x00E0⟩
  | .ret => ⟨0xFFFF, 0x00EE⟩
  | .jp _ => ⟨0xF000, 0x1000⟩
  | .call _ => ⟨0xF000, 0x2000⟩
  | .seImm _ _ => ⟨0xF000, 0x3000⟩
  | .sneImm _ _ => ⟨0xF000, 0x4000⟩
  | .seReg _ _ => ⟨0xF00F, 0x5000⟩
  | .ldImm _ _ => ⟨0xF000, 0x6000⟩
  | .addImm _ _ => ⟨0xF000, 0x7000⟩
  | .ldReg _ _ => ⟨0xF00F, 0x8000⟩
  | .orReg _ _ => ⟨0xF00F, 0x8001⟩
  | .andReg _ _ => ⟨0xF00F, 0x8002⟩
  | .xorReg _ _ => ⟨0xF00F, 0x8003⟩
  | .addReg _ _ => ⟨0xF00F, 0x8004⟩
  | .subReg _ _ => ⟨0xF00F, 0x8005⟩
  | .shr _ _ => ⟨0xF00F, 0x8006⟩
  | .subnReg _ _ => ⟨0xF00F, 0x8007⟩
  | .shl _ _ => ⟨0xF00F, 0x800E⟩
  | .sneReg _ _ => ⟨0xF00F, 0x9000⟩
  | .ldI _ => ⟨0xF000, 0xA000⟩
  | .jpV0 _ => ⟨0xF000, 0xB000⟩
  | .rnd _ _ => ⟨0xF000, 0xC000⟩
  | .drw _ _ _ => ⟨0xF000, 0xD000⟩
  | .skp _ => ⟨0xF0FF, 0xE09E⟩
  | .sknp _ => ⟨0xF0FF, 0xE0A1⟩
  | .ldVxDt _ => ⟨0xF0FF, 0xF007⟩
  | .ldVxK _ => ⟨0xF0FF, 0xF00A⟩
  | .ldDtVx _ => ⟨0xF0FF, 0xF015⟩
  | .ldStVx _ => ⟨0xF0FF, 0xF018⟩
  | .addI _ => ⟨0xF0FF, 0xF01E⟩
  | .ldF _ => ⟨0xF0FF, 0xF029⟩
  | .ldB _ => ⟨0xF0FF, 0xF033⟩
  | .storeRegs _ => ⟨0xF0FF, 0xF055⟩
  | .loadRegs _ => ⟨0xF0FF, 0xF065⟩

/-- The opcode is well formed: it matches some row of R47. Every other word is an unrecognised opcode (R52). -/
def legalOpcode (op : Opcode) : Bool := opcodeTable.any (·.selects op)

/-- The image is well formed: at most 3584 bytes (R43). -/
def imageFits (bytes : List Byte) : Bool := decide (bytes.length ≤ Config.maxImage)

end Sys2Proof
end

