-- ==== Sys2Proof/Decode.lean ====
section
/-! DEFINITION. The decoder and the encoder (spec/30_encoding.md R46 to R52). `decode` is R50's dispatch, a
total function of the 16 bits and of nothing else; an opcode that R50 answers BADOP for is rejected by name. -/

namespace Sys2Proof

/-! ### The fields of an opcode (R46) -/

/-- `F = op[15:12]`, the family selector. -/
def fieldF (op : Opcode) : BitVec 4 := op.extractLsb' 12 4

/-- `X = op[11:8]`, a register index. -/
def fieldX (op : Opcode) : Reg := (op.extractLsb' 8 4).toFin

/-- `Y = op[7:4]`, a register index. -/
def fieldY (op : Opcode) : Reg := (op.extractLsb' 4 4).toFin

/-- `N = op[3:0]`, a 4-bit immediate or selector. -/
def fieldN (op : Opcode) : BitVec 4 := op.extractLsb' 0 4

/-- `NN = op[7:0]`, an 8-bit immediate or selector. -/
def fieldNN (op : Opcode) : Byte := op.extractLsb' 0 8

/-- `NNN = op[11:0]`, a 12-bit immediate. -/
def fieldNNN (op : Opcode) : BitVec 12 := op.extractLsb' 0 12

/-! ### The decoder (R50) -/

/-- Why bytes are no instruction. -/
inductive Reject where
  /-- The opcode matches no row of R47 (R52); a CPU tick that fetches it raises `Fatal(BADOP)` (R109). -/
  | badop (op : Opcode)
  /-- Fewer than two bytes: an instruction is always two (R46). Never met by a fetch, which reads two. -/
  | tooShort
deriving DecidableEq, Repr

/-- Family 0: three opcodes with all 16 bits fixed (R50, R51). -/
def decodeFamily0 (op : Opcode) : Except Reject Instr :=
  match op.toNat with
  | 0x0000 => .ok .nop
  | 0x00E0 => .ok .cls
  | 0x00EE => .ok .ret
  | _ => .error (.badop op)

/-- Family 8: the low nibble selects the operation (R50). -/
def decodeFamily8 (op : Opcode) : Except Reject Instr :=
  let x := fieldX op
  let y := fieldY op
  match (fieldN op).toNat with
  | 0x0 => .ok (.ldReg x y)
  | 0x1 => .ok (.orReg x y)
  | 0x2 => .ok (.andReg x y)
  | 0x3 => .ok (.xorReg x y)
  | 0x4 => .ok (.addReg x y)
  | 0x5 => .ok (.subReg x y)
  | 0x6 => .ok (.shr x y)
  | 0x7 => .ok (.subnReg x y)
  | 0xE => .ok (.shl x y)
  | _ => .error (.badop op)

/-- Family E: the low byte selects the operation (R50). -/
def decodeFamilyE (op : Opcode) : Except Reject Instr :=
  let x := fieldX op
  match (fieldNN op).toNat with
  | 0x9E => .ok (.skp x)
  | 0xA1 => .ok (.sknp x)
  | _ => .error (.badop op)

/-- Family F: the low byte selects the operation (R50). -/
def decodeFamilyF (op : Opcode) : Except Reject Instr :=
  let x := fieldX op
  match (fieldNN op).toNat with
  | 0x07 => .ok (.ldVxDt x)
  | 0x0A => .ok (.ldVxK x)
  | 0x15 => .ok (.ldDtVx x)
  | 0x18 => .ok (.ldStVx x)
  | 0x1E => .ok (.addI x)
  | 0x29 => .ok (.ldF x)
  | 0x33 => .ok (.ldB x)
  | 0x55 => .ok (.storeRegs x)
  | 0x65 => .ok (.loadRegs x)
  | _ => .error (.badop op)

/-- Families 5 and 9: the low nibble must be 0 (R50, R51). -/
def whenN0 (op : Opcode) (i : Instr) : Except Reject Instr :=
  if fieldN op = 0 then .ok i else .error (.badop op)

/-- `Decode(op)`: dispatch on the family, then on the fixed low bits (R50). -/
def decode (op : Opcode) : Except Reject Instr :=
  let x := fieldX op
  let y := fieldY op
  let nn := fieldNN op
  let nnn := fieldNNN op
  match (fieldF op).toNat with
  | 0x0 => decodeFamily0 op
  | 0x1 => .ok (.jp nnn)
  | 0x2 => .ok (.call nnn)
  | 0x3 => .ok (.seImm x nn)
  | 0x4 => .ok (.sneImm x nn)
  | 0x5 => whenN0 op (.seReg x y)
  | 0x6 => .ok (.ldImm x nn)
  | 0x7 => .ok (.addImm x nn)
  | 0x8 => decodeFamily8 op
  | 0x9 => whenN0 op (.sneReg x y)
  | 0xA => .ok (.ldI nnn)
  | 0xB => .ok (.jpV0 nnn)
  | 0xC => .ok (.rnd x nn)
  | 0xD => .ok (.drw x y (fieldN op))
  | 0xE => decodeFamilyE op
  | _ => decodeFamilyF op

/-- `{hi, lo}`: the opcode of two bytes, most significant byte first (R35, R36). -/
def opcodeOf (hi lo : Byte) : Opcode := hi ++ lo

/-- Decode the instruction at the front of a byte sequence; the rest of the bytes follows it (R46, R54). -/
def decodeBytes : List Byte → Except Reject (Instr × List Byte)
  | hi :: lo :: rest => (decode (opcodeOf hi lo)).map (fun i => (i, rest))
  | _ => .error .tooShort

/-! ### The encoder, from the formats of R48 -/

/-- Format `NNN`: `{f, NNN}`. -/
def formatNNN (f : BitVec 4) (nnn : BitVec 12) : Opcode := f ++ nnn

/-- Format `XNN`, and format `X` with a fixed low byte: `{f, X, NN}`. -/
def formatXNN (f : BitVec 4) (x : Reg) (nn : Byte) : Opcode := f ++ BitVec.ofFin (w := 4) x ++ nn

/-- Formats `XY` and `XYN`: `{f, X, Y, n}`. -/
def formatXYN (f : BitVec 4) (x y : Reg) (n : BitVec 4) : Opcode :=
  f ++ BitVec.ofFin (w := 4) x ++ BitVec.ofFin (w := 4) y ++ n

/-- The opcode of an instruction, from its row of R47. -/
def encode : Instr → Opcode
  | .nop => 0x0000
  | .cls => 0x00E0
  | .ret => 0x00EE
  | .jp nnn => formatNNN 0x1 nnn
  | .call nnn => formatNNN 0x2 nnn
  | .seImm x nn => formatXNN 0x3 x nn
  | .sneImm x nn => formatXNN 0x4 x nn
  | .seReg x y => formatXYN 0x5 x y 0x0
  | .ldImm x nn => formatXNN 0x6 x nn
  | .addImm x nn => formatXNN 0x7 x nn
  | .ldReg x y => formatXYN 0x8 x y 0x0
  | .orReg x y => formatXYN 0x8 x y 0x1
  | .andReg x y => formatXYN 0x8 x y 0x2
  | .xorReg x y => formatXYN 0x8 x y 0x3
  | .addReg x y => formatXYN 0x8 x y 0x4
  | .subReg x y => formatXYN 0x8 x y 0x5
  | .shr x y => formatXYN 0x8 x y 0x6
  | .subnReg x y => formatXYN 0x8 x y 0x7
  | .shl x y => formatXYN 0x8 x y 0xE
  | .sneReg x y => formatXYN 0x9 x y 0x0
  | .ldI nnn => formatNNN 0xA nnn
  | .jpV0 nnn => formatNNN 0xB nnn
  | .rnd x nn => formatXNN 0xC x nn
  | .drw x y n => formatXYN 0xD x y n
  | .skp x => formatXNN 0xE x 0x9E
  | .sknp x => formatXNN 0xE x 0xA1
  | .ldVxDt x => formatXNN 0xF x 0x07
  | .ldVxK x => formatXNN 0xF x 0x0A
  | .ldDtVx x => formatXNN 0xF x 0x15
  | .ldStVx x => formatXNN 0xF x 0x18
  | .addI x => formatXNN 0xF x 0x1E
  | .ldF x => formatXNN 0xF x 0x29
  | .ldB x => formatXNN 0xF x 0x33
  | .storeRegs x => formatXNN 0xF x 0x55
  | .loadRegs x => formatXNN 0xF x 0x65

/-- The high byte of an opcode, which stands at the lower address (R36). -/
def highByte (op : Opcode) : Byte := op.extractLsb' 8 8

/-- The low byte of an opcode, which stands at the higher address (R36). -/
def lowByte (op : Opcode) : Byte := op.extractLsb' 0 8

/-- The two bytes of an instruction as they stand in memory (R36, R46). -/
def encodeBytes (i : Instr) : List Byte := [highByte (encode i), lowByte (encode i)]

/-! ### Words of the opcode table -/

/-- The opcode whose low `nbits` bits are those of `w`, the others 0 (an instruction is 16 bits, R46). -/
def tableWord (nbits w : Nat) : Opcode := BitVec.ofNat 16 (w % 2 ^ nbits)

/-- What the decoder reads from the instruction whose bits are `w`, numbered as the opcode table numbers
them: laid out in memory order, high byte first, and decoded. -/
def decodeTableWord (nbits w : Nat) : Option Instr :=
  match decodeBytes [highByte (tableWord nbits w), lowByte (tableWord nbits w)] with
  | .ok (i, _) => some i
  | .error _ => none

end Sys2Proof
end

