-- ==== Sys2Proof/Machine/Params.lean ====
section
/-! DEFINITION. The default values of the spec's open parameters (R4): `FONT` and `SPRITE_EDGE`. The machine takes any
others (`State.params`). -/

namespace Sys2Proof.Machine

/-- Glyphs 0 to 3 of the default font (R27). -/
def fontGlyphs0 : List Byte :=
  [0xF0, 0x90, 0x90, 0x90, 0xF0,
   0x20, 0x60, 0x20, 0x20, 0x70,
   0xF0, 0x10, 0xF0, 0x80, 0xF0,
   0xF0, 0x10, 0xF0, 0x10, 0xF0]

/-- Glyphs 4 to 7 of the default font (R27). -/
def fontGlyphs4 : List Byte :=
  [0x90, 0x90, 0xF0, 0x10, 0x10,
   0xF0, 0x80, 0xF0, 0x10, 0xF0,
   0xF0, 0x80, 0xF0, 0x90, 0xF0,
   0xF0, 0x10, 0x20, 0x40, 0x40]

/-- Glyphs 8 to B of the default font (R27). -/
def fontGlyphs8 : List Byte :=
  [0xF0, 0x90, 0xF0, 0x90, 0xF0,
   0xF0, 0x90, 0xF0, 0x10, 0xF0,
   0xF0, 0x90, 0xF0, 0x90, 0x90,
   0xE0, 0x90, 0xE0, 0x90, 0xE0]

/-- Glyphs C to F of the default font (R27). -/
def fontGlyphsC : List Byte :=
  [0xF0, 0x80, 0x80, 0x80, 0xF0,
   0xE0, 0x90, 0x90, 0x90, 0xE0,
   0xF0, 0x80, 0xF0, 0x80, 0xF0,
   0xF0, 0x80, 0xF0, 0x80, 0x80]

/-- `FONT[0..79]`, 5 bytes per glyph in digit order: the spec's default values, which it takes from general
knowledge (R27; log entry 1, PRESUMED). -/
def font : Config.Font := ⟨(fontGlyphs0 ++ fontGlyphs4 ++ fontGlyphs8 ++ fontGlyphsC).toArray, rfl⟩

/-- The parameters of `State.reset`: the default font, and `SPRITE_EDGE` clip (R4, R27, R99; log entries 1, 2). -/
def defaultParams : Config.Params := { font := font, edge := .clip }

end Sys2Proof.Machine
end

