-- ==== Sys2Proof/Machine/State.lean ====
section
/-! DEFINITION. The state: the record of the twelve elements the spec gives the machine and nothing else
(`CoreState`, spec/10_state.md R13 to R26), and beside it what the spec says is no state of the machine (R8): its
parameters, and what the host supplies (`State`; log entries 4, 5, 13 and 22). Then the reasons of the two outcomes
that are no next state, and the state after reset (R28, R127). -/

namespace Sys2Proof.Machine

/-- `fault`: the fatal condition that stopped the machine (R24, R106). A register without meaning beyond its
five values, so a closed type; its 3-bit codes are `FaultCode.code` (log entry 10). -/
inductive FaultCode where
  /-- Code 0 `NONE`: running. -/
  | none
  /-- Code 1 `OOB`: out-of-bounds memory access, raised by fetch, `DXYN`, `FX33`, `FX55`, `FX65` (R107). -/
  | oob
  /-- Code 2 `STACK`: stack exhaustion, raised by `2NNN` and `00EE` (R108). -/
  | stack
  /-- Code 3 `BADOP`: unrecognised opcode, raised by decode (R109). -/
  | badop
  /-- Code 4 `LOAD`: overlong program image, raised by `load_image` (R110). -/
  | load
deriving DecidableEq, Repr

/-- Main memory: the cells that differ from their content after reset, by strictly rising address (R23, R31).
What an unlisted address reads as is `unlistedByte` of Machine/Ops.lean. -/
abbrev Memory := List Host.Cell

/-- The display: 32 rows of 64 cells, top row first, leftmost cell first; `true` is on (R22). The cell the
spec writes `disp[y * 64 + x]` is entry `x` of row `y`. -/
abbrev Display := Vector (Vector Bool 64) 32

/-- The state record of the machine: the twelve elements of R26 and nothing else (R13 to R26). -/
structure CoreState where
  /-- The general registers (R13, R14). -/
  V : Vector Byte 16
  /-- The program counter (R15). Between events: the address of the next instruction to fetch. -/
  pc : Word
  /-- The index register (R16). -/
  I : Word
  /-- The return stack (R17). -/
  stack : Vector Word 16
  /-- The stack cursor, 0..16: the number of valid entries and the index of the next free one (R18). -/
  sp : Fin 17
  /-- The delay timer (R19). -/
  dt : Byte
  /-- The sound timer (R20). -/
  st : Byte
  /-- The key latch: `true` is pressed (R21). -/
  keys : Vector Bool 16
  /-- The display buffer (R22). -/
  disp : Display
  /-- Main memory (R23). -/
  mem : Memory
  /-- The fault register (R24). -/
  fault : FaultCode
  /-- The key-wait status (R25). -/
  waiting : Bool
deriving DecidableEq, Repr

/-- The machine and what stands around it: the twelve elements, then the parameters of the machine and the host's
side of the ports, which R8 says are no state of the machine. -/
structure State extends CoreState where
  /-- NOT STATE OF THE MACHINE (R4, R8; log entry 22): its parameters, which nothing writes. -/
  params : Config.Params
  /-- HOST'S SIDE (log entry 4): the input port `rnd` as sampled with the CPU tick in progress (R123, R134). -/
  rnd : Byte
  /-- HOST'S SIDE (log entries 4, 5): how many free values the host has used. -/
  draws : Nat
  /-- HOST'S SIDE (log entry 5): the events the host has issued that the machine has not yet taken, oldest first. -/
  inbox : List HostEvent
  /-- HOST'S SIDE (log entry 5): what the host does once they are taken. -/
  idle : Idle
deriving DecidableEq, Repr

/-- Why a step stops outside the state. NO REASON EXISTS: every fatal condition of this machine has an effect
the spec describes (`fault` is written and the machine is stopped until reset, R111, R113, R114), so it is a
next state, and no meaning ever answers a fault (log entry 6; safe: nothing is left out). -/
inductive Fault where
deriving DecidableEq, Repr

/-- Why a step has no meaning. -/
inductive Refusal where
  /-- Raised by an arm of `exec` whose instruction has no meaning yet: none is left. Safe. -/
  | notModelled (mnemonic : String)
deriving DecidableEq, Repr

/-- The twelve elements right after `reset` or power-on (R28, R127): `pc` 512, all else zero, memory as
`unlistedByte` gives it (the font copy, then zeros), nothing listed. -/
def CoreState.reset : CoreState where
  V := Vector.replicate 16 0
  pc := 512
  I := 0
  stack := Vector.replicate 16 0
  sp := 0
  dt := 0
  st := 0
  keys := Vector.replicate 16 false
  disp := Vector.replicate 32 (Vector.replicate 64 false)
  mem := []
  fault := .none
  waiting := false

/-- The machine with the parameters `p` right after reset. The host's side is the model's own (log entry 13, DESIGN
CHOICE): no random byte sampled, no free value used, no event queued, CPU ticks from then on. -/
def State.resetWith (p : Config.Params) : State :=
  { CoreState.reset with params := p, rnd := 0, draws := 0, inbox := [], idle := .cpuTicks }

/-- The machine right after reset, with the default parameters (R28; log entries 1, 2). -/
def State.reset : State := State.resetWith defaultParams

end Sys2Proof.Machine
end

