-- ==== Sys2Proof/Machine/Ops.lean ====
section
/-! DEFINITION. The named operations over memory, registers, the return stack and the program counter, and
the one way a fatal condition is taken (spec/20_memory.md, spec/41_control_flow.md R61, R62,
spec/60_exceptions.md R111 to R115). There is no return from a fatal condition but reset (R115): that is
`handleReset` of Machine/HostEvents.lean. -/

namespace Sys2Proof.Machine

/-! ### Main memory (R23, R31 to R36) -/

/-- What `mem[a]` holds after reset with the font table `f`, hence what an unlisted address reads as: the font copy
in 0..79, 0 in 80..4095 (R23, R27, R28, R32). -/
def unlistedByte (f : Config.Font) (a : Nat) : Byte := if h : a < 80 then f[a] else 0

/-- The canonical form: addresses below 4096 and strictly rising, no cell equal to what its address reads as
when unlisted. -/
abbrev Memory.wf (m : Memory) (f : Config.Font) : Prop :=
  m.Pairwise (fun c d => c.1 < d.1) ∧ ∀ c ∈ m, c.1 < 4096 ∧ c.2 ≠ unlistedByte f c.1

/-- The byte `mem[a]` (R33). The bound is checked before, by `rangeOk` or `fetch`. -/
def Memory.read : Memory → Config.Font → Nat → Byte
  | [], f, a => unlistedByte f a
  | (b, v) :: m, f, a => if a = b then v else Memory.read m f a

/-- `mem[a] <- v`, keeping the canonical form (R34). The bound is checked before. -/
def Memory.write : Memory → Config.Font → Nat → Byte → Memory
  | [], f, a, v => if v = unlistedByte f a then [] else [(a, v)]
  | (b, w) :: m, f, a, v =>
    if a < b then (if v = unlistedByte f a then (b, w) :: m else (a, v) :: (b, w) :: m)
    else if a = b then (if v = unlistedByte f a then m else (a, v) :: m)
    else (b, w) :: Memory.write m f a v

/-- The `n` bytes from `a` upward (R36, R38). -/
def Memory.readRange (m : Memory) (f : Config.Font) (a n : Nat) : List Byte :=
  (List.range n).map (fun i => m.read f (a + i))

/-- Byte writes at ascending addresses from `a` (R34, R36). -/
def Memory.writeRange : Memory → Config.Font → Nat → List Byte → Memory
  | m, _, _, [] => m
  | m, f, a, v :: vs => Memory.writeRange (m.write f a v) f (a + 1) vs

/-- `mem[a]` of a machine, whatever its font table (R33). -/
def State.byteAt (s : State) (a : Nat) : Byte := s.mem.read s.params.font a

/-- The `n` bytes of a machine from `a` upward (R36, R38). -/
def State.bytesAt (s : State) (a n : Nat) : List Byte := s.mem.readRange s.params.font a n

/-- `mem[a..] <- bytes` (R34, R36). -/
def State.storeBytes (s : State) (a : Nat) (bytes : List Byte) : State :=
  { s with mem := s.mem.writeRange s.params.font a bytes }

/-- The memory of a machine is in canonical form. -/
abbrev State.memWf (s : State) : Prop := s.mem.wf s.params.font

/-- The whole-range check of an access of `n` bytes at `a` (R45): nothing to check when `n = 0`, else
`a + n - 1 <= 4095`. The sum is exact, never reduced (R31, R107). -/
def rangeOk (a n : Nat) : Bool := decide (n = 0 ∨ a + n - 1 ≤ 4095)

/-! ### Registers (R11, R13) -/

/-- `V[i]`. -/
def State.getV (s : State) (i : Reg) : Byte := s.V[i.val]

/-- `V[i] <- v`. -/
def State.setV (s : State) (i : Reg) (v : Byte) : State := { s with V := s.V.set i.val v }

/-- `bytes` written to the registers `i`, `i+1`, ... in this order; the others are unchanged. -/
def writeRegsFrom (V : Vector Byte 16) (i : Nat) : List Byte → Vector Byte 16
  | [] => V
  | v :: bytes => writeRegsFrom (V.setIfInBounds i v) (i + 1) bytes

/-- `V[0..n-1] <- bytes`, `n` the number of bytes; the registers from `n` on are unchanged (R95). -/
def State.setVs (s : State) (bytes : List Byte) : State := { s with V := writeRegsFrom s.V 0 bytes }

/-- `I <- v`. -/
def State.setI (s : State) (v : Word) : State := { s with I := v }

/-- `dt <- v`. -/
def State.setDt (s : State) (v : Byte) : State := { s with dt := v }

/-- `st <- v`. -/
def State.setSt (s : State) (v : Byte) : State := { s with st := v }

/-- `disp <- d`. -/
def State.setDisp (s : State) (d : Display) : State := { s with disp := d }

/-- `keys[k] <- v`. -/
def State.setKey (s : State) (k : Key) (v : Bool) : State := { s with keys := s.keys.set k.val v }

/-- `pc <- target` (R15, R68). -/
def State.setPc (s : State) (v : Word) : State := { s with pc := v }

/-! ### Checked accesses (R33 to R35, R45) -/

/-- A data read of `n` bytes at `a`: `Fatal(OOB)` if any lies above 4095, before anything is read (R33, R45). -/
def memRead (s : State) (a n : Nat) : Except FaultCode (List Byte) :=
  if rangeOk a n then .ok (s.bytesAt a n) else .error .oob

/-- A data write of `bytes` at `a`: `Fatal(OOB)` if any lies above 4095, before anything is written (R34, R45).
No address is protected (R39). -/
def memWrite (s : State) (a : Nat) (bytes : List Byte) : Except FaultCode State :=
  if rangeOk a bytes.length then .ok (s.storeBytes a bytes) else .error .oob

/-- Fetch, `MemRead(pc, 2)`: `Fatal(OOB)` if `pc + 1 > 4095`, else `{mem[pc], mem[pc + 1]}`, at any `pc`, odd
ones and the reserved region included (R35, R36, R37). -/
def fetch (s : State) : Except FaultCode Opcode :=
  if s.pc.toNat + 1 ≤ 4095 then .ok (opcodeOf (s.byteAt s.pc.toNat) (s.byteAt (s.pc.toNat + 1)))
  else .error .oob

/-! ### The frame of an instruction (R56 to R58) -/

/-- What a CPU tick does before execute: `pc <- pc0 + 2` and `waiting <- 0` (R56, R57). Every meaning is
given the state BEFORE the tick and begins with this, so that a fatal condition needs no undoing (R111). -/
def State.advance (s : State) : State := { s with pc := s.pc + 2, waiting := false }

/-- Skip: `pc <- pc + 2` on the advanced value if the condition holds. The skipped bytes are not read
(R54, R58). -/
def State.skipIf (s : State) (c : Bool) : State := if c then s.setPc (s.pc + 2) else s

/-- The tick of `FX0A` that finds no key: the fetch advance is undone and `waiting <- 1`, so from the state
before the tick only `waiting` changes (R104). -/
def State.hold (s : State) : State := { s with waiting := true }

/-! ### The return stack (R61, R62) -/

/-- `Push(v)`: append at the cursor, then advance it; `Fatal(STACK)` when `sp = 16` (R61). -/
def State.push (s : State) (v : Word) : Except FaultCode State :=
  if h : s.sp.val < 16 then
    .ok { s with stack := s.stack.set s.sp.val v, sp := ⟨s.sp.val + 1, Nat.succ_lt_succ h⟩ }
  else .error .stack

/-- `Pop()`: retreat the cursor, then read; `Fatal(STACK)` when `sp = 0`. The entry keeps its value (R17, R62). -/
def State.pop (s : State) : Except FaultCode (Word × State) :=
  if h : 0 < s.sp.val then
    have hlt : s.sp.val - 1 < 16 := by have := s.sp.isLt; omega
    .ok (s.stack[s.sp.val - 1], { s with sp := ⟨s.sp.val - 1, Nat.lt_succ_of_lt hlt⟩ })
  else .error .stack

/-! ### Fatal conditions (R106 to R115) -/

/-- The 3-bit code of the `fault` register (R24, R106). -/
def FaultCode.code : FaultCode → BitVec 3
  | .none => 0
  | .oob => 1
  | .stack => 2
  | .badop => 3
  | .load => 4

/-- TAKING A FATAL CONDITION: `fault <- cause` and nothing else (R111, R114): no state is saved, no mode
changes, `pc` still addresses the instruction that faulted. -/
def State.raise (s : State) (c : FaultCode) : State := { s with fault := c }

/-- THE COMMIT RULE (R111): an event keeps all its writes if nothing raised; if a line raised `c`, the state
is the one before the event, `s`, except `fault = c`. -/
def commit (s : State) : Except FaultCode State → Host.Outcome State Fault Refusal
  | .ok t => .next t
  | .error c => .next (s.raise c)

end Sys2Proof.Machine
end

