-- ==== Sys2Proof/Machine/Operands.lean ====
section
/-! DEFINITION. Operand forms (R49): the immediates as they are used, the key latch read through a register
value (R75), the key `FX0A` reports (R104), the glyph address (R92), the decimal digits (R93). Registers are
read and written through `getV` and `setV` of Machine/Ops.lean. -/

namespace Sys2Proof.Machine

/-- `zext_16(NNN)`: a 12-bit immediate as an address (R49). -/
def addrOf (nnn : BitVec 12) : Word := nnn.setWidth 16

/-- `zext_16(v)`: an 8-bit value in a 16-bit sum (R49, R67, R91). -/
def zext16 (v : Byte) : Word := v.setWidth 16

/-- The address of `V[0]`-indexed jumps, `zext_16(NNN) + zext_16(V[0])`, never reduced modulo 4096 (R67). -/
def jumpV0Target (nnn : BitVec 12) (s : State) : Word := addrOf nnn + zext16 (s.getV 0)

/-- The base address of a transfer or sprite: `I` as a plain number, never reduced modulo 4096 (R31, R45). -/
def indexAddr (s : State) : Nat := s.I.toNat

/-- `KeyDown(v) = (v <= 15) and (keys[v] = 1)`: a value above 15 matches no key (R75). -/
def keyDown (s : State) (v : Byte) : Bool := if h : v.toNat < 16 then s.keys[v.toNat] else false

/-- The least key that is pressed, if any is (R104; log entry 3: the spec's own choice among several keys). -/
def lowestKey (s : State) : Option Key := (List.finRange 16).find? (fun k => s.keys[k.val])

/-- The value of a key as an 8-bit register value, `zext_8(k)` (R104). -/
def keyByte (k : Key) : Byte := BitVec.ofNat 8 k.val

/-- The address of the built-in glyph for the low nibble of `v`: `5 * v[3:0]` (R92). -/
def glyphAddr (v : Byte) : Word := BitVec.ofNat 16 (5 * (v.toNat % 16))

/-- The three decimal digits of `v`, hundreds first, each a binary value in its own byte (R93). -/
def decimalDigits (v : Byte) : List Byte := [v / 100, v / 10 % 10, v % 10]

/-- The values of `V[0]` .. `V[X]`, ascending (R94). -/
def regsUpTo (s : State) (x : Reg) : List Byte := s.V.toList.take (x.val + 1)

end Sys2Proof.Machine
end

