-- ==== Sys2Proof/Machine/Flags.lean ====
section
/-! DEFINITION. Every flag computation the spec gives (R14, R76, R83 to R87, R89, R99): the carry, the no-borrow,
the bit shifted out and the collision flag, each an explicit output that its instruction writes to `V[15]`. -/

namespace Sys2Proof.Machine

/-- A flag as the value written to `V[15]`: 0 or 1 (R14). -/
def flagByte (b : Bool) : Byte := if b then 1 else 0

/-- The index of the flag register `VF` (R14). -/
def VF : Reg := 15

/-- Carry of `a + b`: the 9-bit sum exceeds 255 (R83). -/
def carry (a b : Byte) : Bool := decide (255 < a.toNat + b.toNat)

/-- No borrow in `a - b`: `a >= b` (R84, R86). -/
def noBorrow (a b : Byte) : Bool := decide (b.toNat ≤ a.toNat)

/-- The bit `8XY6` shifts out, `a[0]` (R85). -/
def shiftedOutRight (a : Byte) : Bool := a.getLsbD 0

/-- The bit `8XYE` shifts out, `a[7]` (R87). -/
def shiftedOutLeft (a : Byte) : Bool := a.getLsbD 7

/-- Two writes in the order of `8XY4`, `8XY5`, `8XY7`: the result, then the flag, which wins when `X = 15` (R76). -/
def State.setResultThenFlag (s : State) (x : Reg) (r : Byte) (f : Bool) : State :=
  (s.setV x r).setV VF (flagByte f)

/-- Two writes in the order of `8XY6`, `8XYE`: the flag, then the result, which wins when `X = 15` (R76). -/
def State.setFlagThenResult (s : State) (x : Reg) (r : Byte) (f : Bool) : State :=
  (s.setV VF (flagByte f)).setV x r

/-! ### Drawing a sprite and its collision flag (R97, R99) -/

/-- A display being drawn on, and whether some cell has gone from on to off. -/
structure Canvas where
  disp : Display
  hit : Bool
deriving DecidableEq, Repr

/-- The cell in column `x` and row `y` is on (R22). -/
def Display.on (d : Display) (x : Fin 64) (y : Fin 32) : Bool := (d[y.val])[x.val]

/-- `disp[y*64 + x] <- disp[y*64 + x] ^ 1` (R99). -/
def Display.invert (d : Display) (x : Fin 64) (y : Fin 32) : Display :=
  d.set y.val ((d[y.val]).set x.val (!d.on x y))

/-- The cell a sprite pixel at column `x` and row `y` falls on, neither yet reduced. Clipped: none past the
right or bottom edge. Wrapped: both coordinates modulo the display (R99). -/
def spriteCell (edge : Config.SpriteEdge) (x y : Nat) : Option (Fin 64 × Fin 32) :=
  match edge with
  | .clip => if h : x < 64 ∧ y < 32 then some (⟨x, h.1⟩, ⟨y, h.2⟩) else none
  | .wrap => some (⟨x % 64, Nat.mod_lt x (by decide)⟩, ⟨y % 32, Nat.mod_lt y (by decide)⟩)

/-- One set pixel: note a collision if its cell is on, then invert the cell (R99). -/
def drawPixel (edge : Config.SpriteEdge) (x y : Nat) (c : Canvas) : Canvas :=
  match spriteCell edge x y with
  | some (i, j) => { disp := c.disp.invert i j, hit := c.hit || c.disp.on i j }
  | none => c

/-- One sprite row, left to right: column `k` is bit `7 - k` of the row byte; a 0 bit is transparent (R97, R99). -/
def drawRow (edge : Config.SpriteEdge) (x0 y : Nat) (row : Byte) (c : Canvas) : Canvas :=
  (List.range 8).foldl (fun c k => if row.getLsbD (7 - k) then drawPixel edge (x0 + k) y c else c) c

/-- The rows of a sprite, top to bottom, from row `y` of the display (R99). -/
def drawRows (edge : Config.SpriteEdge) (x0 : Nat) : Nat → List Byte → Canvas → Canvas
  | _, [], c => c
  | y, row :: rows, c => drawRows edge x0 (y + 1) rows (drawRow edge x0 y row c)

/-- The display and the collision flag after drawing `rows` at the pixel position `(vx, vy)`, each coordinate
of the start reduced modulo the display (R99). -/
def drawSprite (edge : Config.SpriteEdge) (d : Display) (vx vy : Byte) (rows : List Byte) : Canvas :=
  drawRows edge (vx.toNat % 64) (vy.toNat % 32) rows { disp := d, hit := false }

end Sys2Proof.Machine
end

