-- ==== Sys2Proof/Machine/Alu.lean ====
section
/-! DEFINITION. Meanings of the register instructions `6XNN`, `7XNN`, `8XY0` to `8XY7`, `8XYE`, `CXNN`
(spec/43_alu.md R76 to R89). Both operands are read before any write; the order of the result and the flag
write is that of R76. -/

namespace Sys2Proof.Machine

/-- `6XNN` LD Vx, nn (R77). -/
def execLdImm (x : Reg) (nn : Byte) (s : State) : Host.Outcome State Fault Refusal :=
  .next (s.advance.setV x nn)

/-- `7XNN` ADD Vx, nn: modulo 256, no flag (R78). -/
def execAddImm (x : Reg) (nn : Byte) (s : State) : Host.Outcome State Fault Refusal :=
  .next (s.advance.setV x (s.getV x + nn))

/-- `8XY0` LD Vx, Vy (R79). -/
def execLdReg (x y : Reg) (s : State) : Host.Outcome State Fault Refusal :=
  .next (s.advance.setV x (s.getV y))

/-- `8XY1` OR: `V[15]` is not written as a flag (R80). -/
def execOr (x y : Reg) (s : State) : Host.Outcome State Fault Refusal :=
  .next (s.advance.setV x (s.getV x ||| s.getV y))

/-- `8XY2` AND: `V[15]` is not written as a flag (R81). -/
def execAnd (x y : Reg) (s : State) : Host.Outcome State Fault Refusal :=
  .next (s.advance.setV x (s.getV x &&& s.getV y))

/-- `8XY3` XOR: `V[15]` is not written as a flag (R82). -/
def execXor (x y : Reg) (s : State) : Host.Outcome State Fault Refusal :=
  .next (s.advance.setV x (s.getV x ^^^ s.getV y))

/-- `8XY4` ADD Vx, Vy: the sum modulo 256, then the carry (R83). -/
def execAdd (x y : Reg) (s : State) : Host.Outcome State Fault Refusal :=
  .next (s.advance.setResultThenFlag x (s.getV x + s.getV y) (carry (s.getV x) (s.getV y)))

/-- `8XY5` SUB: `V[X] - V[Y]` modulo 256, then the no-borrow (R84). -/
def execSub (x y : Reg) (s : State) : Host.Outcome State Fault Refusal :=
  .next (s.advance.setResultThenFlag x (s.getV x - s.getV y) (noBorrow (s.getV x) (s.getV y)))

/-- `8XY6` SHR Vx: the bit shifted out, then `V[X] >> 1`; `Y` is ignored (R85). -/
def execShr (x _y : Reg) (s : State) : Host.Outcome State Fault Refusal :=
  .next (s.advance.setFlagThenResult x (s.getV x >>> 1) (shiftedOutRight (s.getV x)))

/-- `8XY7` SUBN: `V[Y] - V[X]` modulo 256, then the no-borrow (R86). -/
def execSubn (x y : Reg) (s : State) : Host.Outcome State Fault Refusal :=
  .next (s.advance.setResultThenFlag x (s.getV y - s.getV x) (noBorrow (s.getV y) (s.getV x)))

/-- `8XYE` SHL Vx: the bit shifted out, then `(V[X] << 1) mod 256`; `Y` is ignored (R87). -/
def execShl (x _y : Reg) (s : State) : Host.Outcome State Fault Refusal :=
  .next (s.advance.setFlagThenResult x (s.getV x <<< 1) (shiftedOutLeft (s.getV x)))

/-- `CXNN` RND Vx, nn: `NN & rnd`, `rnd` the byte sampled with this tick (R88). -/
def execRnd (x : Reg) (nn : Byte) (s : State) : Host.Outcome State Fault Refusal :=
  .next (s.advance.setV x (nn &&& s.rnd))

end Sys2Proof.Machine
end

