-- ==== Sys2Proof/Machine/Control.lean ====
section
/-! DEFINITION. Meanings of the control-flow instructions `0000`, `00EE`, `1NNN`, `2NNN`, `BNNN`
(spec/41_control_flow.md R63 to R68). Every meaning of this model takes the state BEFORE the tick (`pc = pc0`). -/

namespace Sys2Proof.Machine

/-- `0000` NOP (R63). -/
def execNop (s : State) : Host.Outcome State Fault Refusal := .next s.advance

/-- `00EE` RET: `pc <- Pop()`, the popped value used as it is (R64). -/
def execRet (s : State) : Host.Outcome State Fault Refusal :=
  commit s (s.advance.pop.map (fun (a, t) => t.setPc a))

/-- `1NNN` JP: every target is accepted (R65). -/
def execJp (nnn : BitVec 12) (s : State) : Host.Outcome State Fault Refusal :=
  .next (s.advance.setPc (addrOf nnn))

/-- `2NNN` CALL: push the advanced `pc`, then jump (R66). -/
def execCall (nnn : BitVec 12) (s : State) : Host.Outcome State Fault Refusal :=
  commit s ((s.advance.push s.advance.pc).map (fun t => t.setPc (addrOf nnn)))

/-- `BNNN` JP V0: always `V[0]`, no flag, no reduction (R67). -/
def execJpV0 (nnn : BitVec 12) (s : State) : Host.Outcome State Fault Refusal :=
  .next (s.advance.setPc (jumpV0Target nnn s))

end Sys2Proof.Machine
end

