-- ==== Sys2Proof/Machine/Display.lean ====
section
/-! DEFINITION. Meanings of the display instructions `00E0` and `DXYN` (spec/45_display.md R97 to R100). -/

namespace Sys2Proof.Machine

/-- The display with every cell off (R98). -/
def blankDisplay : Display := Vector.replicate 32 (Vector.replicate 64 false)

/-- `00E0` CLS (R98). -/
def execCls (s : State) : Host.Outcome State Fault Refusal := .next (s.advance.setDisp blankDisplay)

/-- What `DXYN` writes once its `N` sprite bytes are read: the display, then the collision flag, last (R99).
The coordinates are read from the state before. -/
def drawnState (s : State) (x y : Reg) (rows : List Byte) : State :=
  let c := drawSprite s.params.edge s.disp (s.getV x) (s.getV y) rows
  (s.advance.setDisp c.disp).setV VF (flagByte c.hit)

/-- `DXYN` DRW: the whole sprite is range-checked first, clipped rows included; `N = 0` reads nothing and
writes 0 to `V[15]` (R99). -/
def execDrw (x y : Reg) (n : BitVec 4) (s : State) : Host.Outcome State Fault Refusal :=
  commit s ((memRead s (indexAddr s) n.toNat).map (drawnState s x y))

end Sys2Proof.Machine
end

