-- ==== Sys2Proof/Machine/Index.lean ====
section
/-! DEFINITION. Meanings of the index-register and memory-transfer instructions `ANNN`, `FX1E`, `FX29`, `FX33`,
`FX55`, `FX65` (spec/44_index_memory.md R90 to R96). The transfers check their whole range first (R45) and
leave `I` as it was (R96). -/

namespace Sys2Proof.Machine

/-- `ANNN` LD I, nnn (R90). -/
def execLdI (nnn : BitVec 12) (s : State) : Host.Outcome State Fault Refusal :=
  .next (s.advance.setI (addrOf nnn))

/-- `FX1E` ADD I, Vx: modulo 65536, no flag (R91). -/
def execAddI (x : Reg) (s : State) : Host.Outcome State Fault Refusal :=
  .next (s.advance.setI (s.I + zext16 (s.getV x)))

/-- `FX29` LD F, Vx (R92). -/
def execLdF (x : Reg) (s : State) : Host.Outcome State Fault Refusal :=
  .next (s.advance.setI (glyphAddr (s.getV x)))

/-- `FX33` LD B, Vx: three digits at `I`, or `Fatal(OOB)` and no byte written (R93). -/
def execLdB (x : Reg) (s : State) : Host.Outcome State Fault Refusal :=
  commit s (memWrite s.advance (indexAddr s) (decimalDigits (s.getV x)))

/-- `FX55` LD [I], Vx: `V[0]` .. `V[X]` at `I` upward, or `Fatal(OOB)` and no byte written (R94). -/
def execStoreRegs (x : Reg) (s : State) : Host.Outcome State Fault Refusal :=
  commit s (memWrite s.advance (indexAddr s) (regsUpTo s x))

/-- `FX65` LD Vx, [I]: `V[0]` .. `V[X]` from `I` upward, or `Fatal(OOB)` and no register written (R95). -/
def execLoadRegs (x : Reg) (s : State) : Host.Outcome State Fault Refusal :=
  commit s ((memRead s (indexAddr s) (x.val + 1)).map (fun bytes => s.advance.setVs bytes))

end Sys2Proof.Machine
end

