-- ==== Sys2Proof/Machine/Skips.lean ====
section
/-! DEFINITION. Meanings of the conditional skips `3XNN`, `4XNN`, `5XY0`, `9XY0`, `EX9E`, `EXA1`
(spec/42_skips.md R69 to R75). None writes a register, a flag or memory. -/

namespace Sys2Proof.Machine

/-- `3XNN` SE Vx, nn (R69). -/
def execSeImm (x : Reg) (nn : Byte) (s : State) : Host.Outcome State Fault Refusal :=
  .next (s.advance.skipIf (s.getV x == nn))

/-- `4XNN` SNE Vx, nn (R70). -/
def execSneImm (x : Reg) (nn : Byte) (s : State) : Host.Outcome State Fault Refusal :=
  .next (s.advance.skipIf (s.getV x != nn))

/-- `5XY0` SE Vx, Vy (R71). -/
def execSeReg (x y : Reg) (s : State) : Host.Outcome State Fault Refusal :=
  .next (s.advance.skipIf (s.getV x == s.getV y))

/-- `9XY0` SNE Vx, Vy (R72). -/
def execSneReg (x y : Reg) (s : State) : Host.Outcome State Fault Refusal :=
  .next (s.advance.skipIf (s.getV x != s.getV y))

/-- `EX9E` SKP Vx (R73). -/
def execSkp (x : Reg) (s : State) : Host.Outcome State Fault Refusal :=
  .next (s.advance.skipIf (keyDown s (s.getV x)))

/-- `EXA1` SKNP Vx (R74). -/
def execSknp (x : Reg) (s : State) : Host.Outcome State Fault Refusal :=
  .next (s.advance.skipIf (!keyDown s (s.getV x)))

end Sys2Proof.Machine
end

