-- ==== Sys2Proof/Machine/TimersKeys.lean ====
section
/-! DEFINITION. Meanings of the timer and key-wait instructions `FX07`, `FX0A`, `FX15`, `FX18`
(spec/46_timers_keys.md R101 to R105). -/

namespace Sys2Proof.Machine

/-- `FX07` LD Vx, DT (R101). -/
def execLdVxDt (x : Reg) (s : State) : Host.Outcome State Fault Refusal :=
  .next (s.advance.setV x s.dt)

/-- `FX15` LD DT, Vx (R102). -/
def execLdDtVx (x : Reg) (s : State) : Host.Outcome State Fault Refusal :=
  .next (s.advance.setDt (s.getV x))

/-- `FX18` LD ST, Vx (R103). -/
def execLdStVx (x : Reg) (s : State) : Host.Outcome State Fault Refusal :=
  .next (s.advance.setSt (s.getV x))

/-- `FX0A` LD Vx, K: with no key down the tick only raises `waiting`; else the least pressed key is stored
(R104, R105). -/
def execLdVxK (x : Reg) (s : State) : Host.Outcome State Fault Refusal :=
  match lowestKey s with
  | none => .next s.hold
  | some k => .next (s.advance.setV x (keyByte k))

end Sys2Proof.Machine
end

