-- ==== Sys2Proof/Machine/HostEvents.lean ====
section
/-! DEFINITION. The host events other than the CPU tick: `load_image` (R43), `timer_tick` (R118), `key_set`
(R120), `display_read` (R121), `reset` (R127), and the outputs the host sees (R121 to R123). -/

namespace Sys2Proof.Machine

/-- The machine is stopped: `fault != 0` (R113). -/
def State.stopped (s : State) : Bool := s.fault != .none

/-- `load_image(bytes)`: nothing while stopped; `Fatal(LOAD)` and nothing written if the image is longer than
3584 bytes; else the bytes are copied to 512 upward and nothing else changes (R43, R110). -/
def handleLoadImage (bytes : List Byte) (s : State) : Host.Outcome State Fault Refusal :=
  if s.stopped then .next s
  else commit s (if imageFits bytes then .ok (s.storeBytes Config.progOrigin bytes) else .error .load)

/-- A timer counts down by 1 and stays at 0 (R118, R119). -/
def countDown (t : Byte) : Byte := if t = 0 then 0 else t - 1

/-- `timer_tick`: nothing while stopped; else both timers count down, independently (R118). -/
def handleTimerTick (s : State) : Host.Outcome State Fault Refusal :=
  if s.stopped then .next s
  else .next ((s.setDt (countDown s.dt)).setSt (countDown s.st))

/-- `key_set(k, v)`: nothing while stopped; else the level of key `k` is `v` (R120). -/
def handleKeySet (k : Key) (v : Bool) (s : State) : Host.Outcome State Fault Refusal :=
  if s.stopped then .next s else .next (s.setKey k v)

/-- `display_read`: no state change, in every state (R121). Its result is `displayCells`. -/
def handleDisplayRead (s : State) : Host.Outcome State Fault Refusal := .next s

/-- `reset`: accepted in every state; the twelve elements take their values after reset whatever they were
(R127), memory the font table of this machine. What is no state of the machine stays: its parameters and the host's
side (log entry 12). -/
def handleReset (s : State) : Host.Outcome State Fault Refusal :=
  .next { s with toCoreState := CoreState.reset }

/-! ### Outputs (R121 to R123) -/

/-- The result of `display_read`: the 2048 cells in row-major order, row 0 left to right, then row 1 (R121). -/
def displayCells (s : State) : List Bool := s.disp.toList.flatMap (fun row => row.toList)

/-- The output `sound_on`: `st != 0` (R122). -/
def soundOn (s : State) : Bool := s.st != 0

/-- The output `fault`, 3 bits (R123). -/
def faultOut (s : State) : BitVec 3 := s.fault.code

/-- The output `waiting` (R123). -/
def waitingOut (s : State) : Bool := s.waiting

end Sys2Proof.Machine
end

