-- ==== Sys2Proof/Machine/Tick.lean ====
section
/-! DEFINITION. The CPU tick (R56), the choice of the next event (R6, log entry 5), and the placing of an
instruction word where the next step fetches it. -/

namespace Sys2Proof.Machine

/-- `cpu_tick(rnd)`: nothing while stopped; fetch, decode, execute, in this order of checks (R56, R112). The
state `exec` is given has the sampled `rnd` and is otherwise the state before the tick. -/
def cpuTick (rnd : Byte) (s : State) : Host.Outcome State Fault Refusal :=
  if s.stopped then .next s
  else
    match fetch s with
    | .error c => .next (s.raise c)
    | .ok op =>
      match decode op with
      | .error _ => .next (s.raise .badop)
      | .ok i => exec i { s with rnd := rnd }

/-- One event of the host (R6), on a state from whose inbox it has been taken. -/
def handleEvent : HostEvent → State → Host.Outcome State Fault Refusal
  | .reset, s => handleReset s
  | .loadImage bytes, s => handleLoadImage bytes s
  | .keySet k v, s => handleKeySet k v s
  | .cpuTick rnd, s => cpuTick rnd s
  | .timerTick, s => handleTimerTick s
  | .displayRead, s => handleDisplayRead s

/-- The next event the host issues, and the state from which it has been taken: the oldest one queued; while none is
queued, what the host does then (R6, R88; log entries 4 and 5). -/
def takeNext (s : State) : HostEvent × State :=
  match s.inbox with
  | e :: rest => (e, { s with inbox := rest })
  | [] =>
    match s.idle with
    | .cpuTicks => (.cpuTick (Config.freeRnd s.draws), { s with draws := s.draws + 1 })
    | .repeats e others => (e, { s with inbox := others })
    | .free => (Config.freeEvent s.draws, { s with draws := s.draws + 1 })

/-- The next event, taken and handled (R6). -/
def nextEvent (s : State) : Host.Outcome State Fault Refusal := handleEvent (takeNext s).1 (takeNext s).2

/-- The address the next fetch reads, or 512 where `pc` addresses no two bytes of memory (log entry 8). -/
def fetchPlace (s : State) : Word := if s.pc.toNat ≤ 4094 then s.pc else 512

/-- `s` with `op` stored where the next step fetches, and all that the fetch needs: not stopped, no event
queued and a CPU tick next, `pc` at the stored word (log entry 8). -/
def placeFetchWord (s : State) (op : Opcode) : State :=
  let a := fetchPlace s
  { s.storeBytes a.toNat [highByte op, lowByte op] with
    pc := a
    fault := .none
    inbox := []
    idle := .cpuTicks }

end Sys2Proof.Machine
end

