-- ==== Sys2Proof/Machine/Step.lean ====
section
/-! DEFINITION. One step of the machine: its next event (R6). -/

namespace Sys2Proof.Machine

/-- One step: the next event the host issues (R6, R56). -/
def step (s : State) : Host.Outcome State Fault Refusal := Sys2Proof.Machine.nextEvent s

/-- `s` with the opcode-table word `w` of `nbits` bits stored where `step` fetches its next instruction, so
that the very next step runs it (log entry 8). -/
def State.withFetchWord (s : State) (nbits w : Nat) : State :=
  Sys2Proof.Machine.placeFetchWord s (tableWord nbits w)

end Sys2Proof.Machine
end

