-- ==== Sys2Proof/Safety.lean ====
section
/-! DEFINITION. The terms the claims use: the elements of the state one by one, what an event leaves unchanged,
what it is to take a fatal condition, the states a run can be in (R60), and the invariant of R29. A run is
SAFE as long as its states are not `stopped`: no fatal condition has been taken. -/

namespace Sys2Proof.Machine

/-! ### Elements of the state and frames -/

/-- The elements of the state, each cell of an array an element of its own (R11, R26); the five last are no state
of the machine: its parameters and the host's side. -/
inductive Elem where
  | V (i : Reg)
  | pc
  | I
  | stack (i : Fin 16)
  | sp
  | dt
  | st
  | key (k : Key)
  | cell (x : Fin 64) (y : Fin 32)
  | mem (a : Nat)
  | fault
  | waiting
  | params
  | rnd
  | draws
  | inbox
  | idle
deriving DecidableEq, Repr

/-- The element has the same value in both states. A byte of memory is compared as it reads. -/
def SameElem (s t : State) : Elem → Prop
  | .V i => t.getV i = s.getV i
  | .pc => t.pc = s.pc
  | .I => t.I = s.I
  | .stack i => t.stack[i.val] = s.stack[i.val]
  | .sp => t.sp = s.sp
  | .dt => t.dt = s.dt
  | .st => t.st = s.st
  | .key k => t.keys[k.val] = s.keys[k.val]
  | .cell x y => t.disp.on x y = s.disp.on x y
  | .mem a => t.byteAt a = s.byteAt a
  | .fault => t.fault = s.fault
  | .waiting => t.waiting = s.waiting
  | .params => t.params = s.params
  | .rnd => t.rnd = s.rnd
  | .draws => t.draws = s.draws
  | .inbox => t.inbox = s.inbox
  | .idle => t.idle = s.idle

/-- Every element but those of `w` is unchanged from `s` to `t`. -/
def UnchangedExcept (w : Elem → Prop) (s t : State) : Prop := ∀ e, ¬ w e → SameElem s t e

/-- Every element but those listed is unchanged from `s` to `t`. -/
def OnlyWrites (w : List Elem) (s t : State) : Prop := UnchangedExcept (fun e => e ∈ w) s t

/-- The outcome, from the state `s`, is that the fatal condition `c` is taken: the next state has `fault = c`
and every other element, `pc` included, as in `s` (R111, R114). -/
def TakesFatal (c : FaultCode) (s : State) (o : Host.Outcome State Fault Refusal) : Prop :=
  ∃ t, o = .next t ∧ t.fault = c ∧ OnlyWrites [.fault] s t

/-- The elements the rule of each instruction lets it write, fatal conditions included: what the "Written by"
lists of spec/10_state.md (R13 to R25) and the instruction's own rule name. -/
def mayWrite (s : State) : Instr → Elem → Prop
  | .nop, e => e ∈ [.pc, .waiting]
  | .cls, e => e ∈ [.pc, .waiting] ∨ ∃ x y, e = .cell x y
  | .ret, e => e ∈ [.pc, .waiting, .sp, .fault]
  | .jp _, e => e ∈ [.pc, .waiting]
  | .call _, e => e ∈ [.pc, .waiting, .sp, .fault] ∨ ∃ i : Fin 16, i.val = s.sp.val ∧ e = .stack i
  | .seImm _ _, e => e ∈ [.pc, .waiting]
  | .sneImm _ _, e => e ∈ [.pc, .waiting]
  | .seReg _ _, e => e ∈ [.pc, .waiting]
  | .ldImm x _, e => e ∈ [.pc, .waiting, .V x]
  | .addImm x _, e => e ∈ [.pc, .waiting, .V x]
  | .ldReg x _, e => e ∈ [.pc, .waiting, .V x]
  | .orReg x _, e => e ∈ [.pc, .waiting, .V x]
  | .andReg x _, e => e ∈ [.pc, .waiting, .V x]
  | .xorReg x _, e => e ∈ [.pc, .waiting, .V x]
  | .addReg x _, e => e ∈ [.pc, .waiting, .V x, .V VF]
  | .subReg x _, e => e ∈ [.pc, .waiting, .V x, .V VF]
  | .shr x _, e => e ∈ [.pc, .waiting, .V x, .V VF]
  | .subnReg x _, e => e ∈ [.pc, .waiting, .V x, .V VF]
  | .shl x _, e => e ∈ [.pc, .waiting, .V x, .V VF]
  | .sneReg _ _, e => e ∈ [.pc, .waiting]
  | .ldI _, e => e ∈ [.pc, .waiting, .I]
  | .jpV0 _, e => e ∈ [.pc, .waiting]
  | .rnd x _, e => e ∈ [.pc, .waiting, .V x]
  | .drw _ _ _, e => e ∈ [.pc, .waiting, .V VF, .fault] ∨ ∃ x y, e = .cell x y
  | .skp _, e => e ∈ [.pc, .waiting]
  | .sknp _, e => e ∈ [.pc, .waiting]
  | .ldVxDt x, e => e ∈ [.pc, .waiting, .V x]
  | .ldVxK x, e => e ∈ [.pc, .waiting, .V x]
  | .ldDtVx _, e => e ∈ [.pc, .waiting, .dt]
  | .ldStVx _, e => e ∈ [.pc, .waiting, .st]
  | .addI _, e => e ∈ [.pc, .waiting, .I]
  | .ldF _, e => e ∈ [.pc, .waiting, .I]
  | .ldB _, e => e ∈ [.pc, .waiting, .fault] ∨ ∃ k, k < 3 ∧ e = .mem (indexAddr s + k)
  | .storeRegs x, e => e ∈ [.pc, .waiting, .fault] ∨ ∃ k, k ≤ x.val ∧ e = .mem (indexAddr s + k)
  | .loadRegs x, e => e ∈ [.pc, .waiting, .fault] ∨ ∃ i : Reg, i.val ≤ x.val ∧ e = .V i

/-! ### Fatal conditions, exactly (R52, R107, R108) -/

/-- The illegal space, family by family (R52). -/
def IllegalOpcode (op : Opcode) : Prop :=
  let f := op.toNat / 4096
  (f = 0x0 ∧ op.toNat % 4096 ∉ [0x000, 0x0E0, 0x0EE]) ∨
  (f = 0x5 ∧ op.toNat % 16 ≠ 0) ∨
  (f = 0x8 ∧ op.toNat % 16 ∈ [0x8, 0x9, 0xA, 0xB, 0xC, 0xD, 0xF]) ∨
  (f = 0x9 ∧ op.toNat % 16 ≠ 0) ∨
  (f = 0xE ∧ op.toNat % 256 ∉ [0x9E, 0xA1]) ∨
  (f = 0xF ∧ op.toNat % 256 ∉ [0x07, 0x0A, 0x15, 0x18, 0x1E, 0x29, 0x33, 0x55, 0x65])

/-- The instruction's own check raises `STACK`: `2NNN` with `sp = 16`, `00EE` with `sp = 0` (R108). -/
def RaisesStack (i : Instr) (s : State) : Prop :=
  (∃ nnn, i = .call nnn ∧ s.sp.val = 16) ∨ (i = .ret ∧ s.sp.val = 0)

/-- The instruction's own check raises `OOB`: the conditions of R107, sums exact. -/
def RaisesOob (i : Instr) (s : State) : Prop :=
  (∃ x y n, i = .drw x y n ∧ 0 < n.toNat ∧ 4095 < s.I.toNat + n.toNat - 1) ∨
  (∃ x, i = .ldB x ∧ 4095 < s.I.toNat + 2) ∨
  (∃ x, i = .storeRegs x ∧ 4095 < s.I.toNat + x.val) ∨
  (∃ x, i = .loadRegs x ∧ 4095 < s.I.toNat + x.val)

/-! ### Sprites (R97, R99) -/

/-- A pixel at column `col` and row `row`, counted past the edges, falls on the cell `(cx, cy)`: clipped, on its own
cell if there is one; wrapped, on that of its coordinates modulo the display (R99). -/
def FallsOn (edge : Config.SpriteEdge) (col row : Nat) (cx : Fin 64) (cy : Fin 32) : Prop :=
  match edge with
  | .clip => col = cx.val ∧ row = cy.val
  | .wrap => col % 64 = cx.val ∧ row % 32 = cy.val

/-- A set pixel of the `n`-row sprite at `I`, drawn by `DXYN` at `(V[X], V[Y])` with the edges of this machine, falls
on the cell in column `cx` and row `cy` (R97, R99). -/
def SpriteCovers (s : State) (x y : Reg) (n : Nat) (cx : Fin 64) (cy : Fin 32) : Prop :=
  ∃ r c, r < n ∧ c < 8 ∧ FallsOn s.params.edge ((s.getV x).toNat % 64 + c) ((s.getV y).toNat % 32 + r) cx cy ∧
    (s.byteAt (indexAddr s + r)).getLsbD (7 - c) = true

/-! ### After reset (R28, R127) -/

/-- Every element has its value after reset (R28, R127), the first 80 bytes of memory the machine's font table (R27). -/
def AtReset (t : State) : Prop :=
  (∀ (a : Nat) (h : a < 80), t.byteAt a = t.params.font[a]) ∧ (∀ a, 80 ≤ a → a ≤ 4095 → t.byteAt a = 0) ∧
  t.pc = 512 ∧ (∀ i, t.getV i = 0) ∧ t.I = 0 ∧ (∀ i : Fin 16, t.stack[i.val] = 0) ∧ t.sp = 0 ∧
  t.dt = 0 ∧ t.st = 0 ∧ (∀ k : Key, t.keys[k.val] = false) ∧ (∀ x y, t.disp.on x y = false) ∧
  t.fault = .none ∧ t.waiting = false

/-! ### States of a run (R60) -/

/-- Parked: `fault = 0`, `waiting = 0` and the opcode at `pc` is a `1NNN` that jumps to itself (R60). -/
def Parked (s : State) : Prop :=
  s.fault = .none ∧ s.waiting = false ∧ s.pc.toNat ≤ 4094 ∧
    ∃ nnn : BitVec 12, addrOf nnn = s.pc ∧
      opcodeOf (s.byteAt s.pc.toNat) (s.byteAt (s.pc.toNat + 1)) = formatNNN 0x1 nnn

/-- What an event leaves, as a state: the next state of `handleEvent`, which always answers one. -/
def afterEvent (s : State) (e : HostEvent) : State :=
  match handleEvent e s with
  | .next t => t
  | .fault _ => s
  | .refused _ => s

/-- A state the machine can come to: from the state after reset, with any parameters, any sequence of events queued
by the host and any of its ways to go on without end, by any number of steps (R6, R29). -/
inductive Reachable : State → Prop where
  | start (p : Config.Params) (events : List HostEvent) (idle : Idle) :
      Reachable { State.resetWith p with inbox := events, idle := idle }
  | step {s t : State} : Reachable s → Machine.step s = .next t → Reachable t

/-! ### The invariant (R29) -/

/-- The valid stack entries are return addresses, at most 4096 (R29, R66). -/
def StackInv (s : State) : Prop := ∀ i : Fin 16, i.val < s.sp.val → s.stack[i.val].toNat ≤ 4096

/-- What every step keeps: memory in canonical form and inside 0..4095, `pc <= 4350` (R15, R29), valid stack
entries at most 4096 (R29). `sp <= 16`, `fault <= 4` and the widths hold by type. -/
def Inv (s : State) : Prop := s.memWf ∧ s.pc.toNat ≤ 4350 ∧ StackInv s

/-- The two states differ at most in stack entries at or above the cursor: popped entries, which no rule
reads (R17). -/
def SameButStaleStack (s t : State) : Prop :=
  t = { s with stack := t.stack } ∧
    ∀ i : Fin 16, i.val < s.sp.val → t.stack[i.val] = s.stack[i.val]

end Sys2Proof.Machine
end

