-- ==== Sys2Proof/Certificates/Slice0/Obligations.lean ====
section
/-! DEFINITION. The statements for the provers, from the numbered rules of spec/. An instruction's statement has
two clauses: what its opcode decodes to, and what `exec` answers. `SameElem`, `OnlyWrites`, `UnchangedExcept` and
`TakesFatal` are those of Sys2Proof/Safety.lean. `s` is the state before the tick (`s.pc = pc0`). -/

open Sys2Proof Sys2Proof.Machine

/-! ### Encoding -/

/-- At least one opcode of each of the sixteen families (top nibbles), and two that are illegal, written out from the
patterns of R47 and the examples of spec/95_test_vectors.md. -/
def Obligations.SpecWordsDecode : Prop :=
  decode 0x00EE = .ok .ret ∧ decode 0x1ABC = .ok (.jp 0xABC) ∧ decode 0x2ABC = .ok (.call 0xABC) ∧
  decode 0x3142 = .ok (.seImm 1 0x42) ∧ decode 0x4311 = .ok (.sneImm 3 0x11) ∧ decode 0x5120 = .ok (.seReg 1 2) ∧
  decode 0x6A2B = .ok (.ldImm 10 0x2B) ∧ decode 0x710A = .ok (.addImm 1 0x0A) ∧ decode 0x8127 = .ok (.subnReg 1 2) ∧
  decode 0x9120 = .ok (.sneReg 1 2) ∧ decode 0xA123 = .ok (.ldI 0x123) ∧ decode 0xB300 = .ok (.jpV0 0x300) ∧
  decode 0xC1F0 = .ok (.rnd 1 0xF0) ∧ decode 0xD125 = .ok (.drw 1 2 5) ∧ decode 0xE0A1 = .ok (.sknp 0) ∧
  decode 0xF265 = .ok (.loadRegs 2) ∧
  decode 0x5121 = .error (.badop 0x5121) ∧ decode 0x00E1 = .error (.badop 0x00E1)

/-- Every instruction, with every operand value its encoding admits, decodes from its opcode and from its two
bytes, high byte first, whatever follows them (R46, R48, R50). -/
def Obligations.DecodeEncodeRoundTrip : Prop :=
  ∀ (i : Instr) (rest : List Byte),
    decode (encode i) = .ok i ∧ decodeBytes (encodeBytes i ++ rest) = .ok (i, rest)

/-- Every bit of every opcode is significant: a legal opcode is the encoding of what it decodes to (R51). -/
def Obligations.EncodeDecodeRoundTrip : Prop :=
  ∀ (op : Opcode) (i : Instr), decode op = .ok i → encode i = op

/-- Decode answers an instruction for every opcode outside the six families of the illegal space and rejects
every opcode inside it (R50, R52). -/
def Obligations.IllegalSpaceIsExactlyRejected : Prop :=
  ∀ op : Opcode, (IllegalOpcode op → decode op = .error (.badop op)) ∧
    (¬ IllegalOpcode op → ∃ i, decode op = .ok i)

/-- The rows of the opcode map are disjoint and complete: an opcode that decodes selects the row of its
instruction and no other, an opcode that does not decode selects none (R47, whose disjointness the spec marks
as derived). -/
def Obligations.OpcodeSelectsOneRow : Prop :=
  (∀ (op : Opcode) (i : Instr), decode op = .ok i →
    i.row ∈ opcodeTable ∧ ∀ r ∈ opcodeTable, r.selects op = true ↔ r = i.row) ∧
  (∀ op : Opcode, (∀ i, decode op ≠ .ok i) → ∀ r ∈ opcodeTable, r.selects op = false)

/-! ### The step, fetch, fatal conditions -/

/-- A step runs the decoded instruction: with a CPU tick queued, on the byte that came with it (R56); with no event
queued, on a free random byte where the host issues CPU ticks, and on the repeated byte where it repeats a CPU tick
(how the host goes on is the model's own, log entries 4 and 5). -/
def Obligations.StepRunsDecodedInstruction : Prop :=
  ∀ (s : State) (i : Instr), s.fault = .none → s.pc.toNat ≤ 4094 →
    decode (opcodeOf (s.byteAt s.pc.toNat) (s.byteAt (s.pc.toNat + 1))) = .ok i →
    (∀ rnd rest, s.inbox = .cpuTick rnd :: rest →
      step s = exec i { s with rnd := rnd, inbox := rest }) ∧
    (s.inbox = [] → s.idle = .cpuTicks →
      step s = exec i { s with rnd := Config.freeRnd s.draws, draws := s.draws + 1 }) ∧
    (∀ rnd others, s.inbox = [] → s.idle = .repeats (.cpuTick rnd) others →
      step s = exec i { s with rnd := rnd, inbox := others })

/-- Fetch combines the two bytes at `pc`, the one at the lower address most significant, at any `pc` up to 4094,
odd ones and the reserved region included; from 4095 on it is out of bounds (R35, R36, R37; D7). -/
def Obligations.FetchReadsTwoBytesBigEndian : Prop :=
  ∀ s : State,
    (s.pc.toNat + 1 ≤ 4095 →
      ∃ op, fetch s = .ok op ∧ op.toNat = (s.byteAt s.pc.toNat).toNat * 256 + (s.byteAt (s.pc.toNat + 1)).toNat) ∧
    (4095 < s.pc.toNat + 1 → fetch s = .error .oob)

/-- The CPU tick of a running machine checks in this order and takes the first that applies: the fetch bound, the
decode, the instruction's own check (R112). The own check is `STACK` or `OOB` on exactly the conditions of R107 and
R108; `LOAD` never arises, and with no condition met no fatal condition is taken. That `OOB` at fetch changes nothing else
is the spec's decision D4, that `DXYN` with `N = 0` is not checked its decision D27. -/
def Obligations.CpuTickTakesExactlyTheseFatals : Prop :=
  ∀ (rnd : Byte) (s : State) (op : Opcode), s.fault = .none →
    op = opcodeOf (s.byteAt s.pc.toNat) (s.byteAt (s.pc.toNat + 1)) →
    (4095 < s.pc.toNat + 1 → TakesFatal .oob s (cpuTick rnd s)) ∧
    (s.pc.toNat + 1 ≤ 4095 → IllegalOpcode op → TakesFatal .badop s (cpuTick rnd s)) ∧
    (s.pc.toNat + 1 ≤ 4095 → ∀ i, decode op = .ok i →
      ∃ t, cpuTick rnd s = .next t ∧
        (t.fault = .stack ↔ RaisesStack i s) ∧ (t.fault = .oob ↔ RaisesOob i s) ∧
        (t.fault = .none ↔ ¬ RaisesStack i s ∧ ¬ RaisesOob i s))

/-- The commit rule: an event other than reset that takes a fatal condition changes nothing but `fault` (R111; the
spec's decision D4 for the conditions other than BADOP). The sampled input `rnd` is the model's own field (log
entry 4). -/
def Obligations.FatalEventChangesOnlyFault : Prop :=
  ∀ (e : HostEvent) (s t : State), e ≠ .reset → handleEvent e s = .next t → t.fault ≠ s.fault →
    s.fault = .none ∧ OnlyWrites [.fault, .rnd] s t

/-- A stopped machine: every event but reset is taken and changes nothing (R113; the spec's decision D5). With no
event queued the host goes on as its model says, and only the host's side changes (log entries 4 and 5). -/
def Obligations.StoppedMachineIsFrozen : Prop :=
  ∀ s : State, s.fault ≠ .none →
    (∀ e rest, s.inbox = e :: rest → e ≠ .reset → step s = .next { s with inbox := rest }) ∧
    (s.inbox = [] → s.idle = .cpuTicks → step s = .next { s with draws := s.draws + 1 }) ∧
    (∀ e others, s.inbox = [] → s.idle = .repeats e others → e ≠ .reset → step s = .next { s with inbox := others })

/-- Every instruction in every state, and every step, answers a next state: no fault and no refusal outside the
state (R113, R114; log entry 6). -/
def Obligations.EveryStepAnswersNext : Prop :=
  (∀ (i : Instr) (s : State), ∃ t, exec i s = .next t) ∧ (∀ s : State, ∃ t, step s = .next t)

/-! ### Reset and the other host events -/

/-- The state after reset, for every font table and either edge (R27, R28; `fault` and `waiting` are the spec's
decision D26); `State.reset` is that of the default parameters (D17, D13; log entries 1 and 2). -/
def Obligations.ResetStateHasSpecValues : Prop :=
  (∀ p : Config.Params, AtReset (State.resetWith p) ∧ (State.resetWith p).params = p) ∧
  AtReset State.reset ∧ State.reset.params.edge = .clip ∧
    State.reset.params.font.toList = fontGlyphs0 ++ fontGlyphs4 ++ fontGlyphs8 ++ fontGlyphsC

/-- The reset event gives every element its value after reset, whatever the state before, stopped or waiting ones
included, memory with the font table of this machine, whichever it is (R127). -/
def Obligations.ResetEventRestoresFromAnyState : Prop :=
  ∀ (s : State) (rest : List HostEvent), s.inbox = .reset :: rest →
    ∃ t, step s = .next t ∧ AtReset t ∧ t.params = s.params ∧ t.inbox = rest

/-- `n` timer ticks in a row take `n` from each timer, independently, and never below 0; nothing else changes; in a
stopped machine nothing does (R118). -/
def Obligations.TimerTicksCountDownToZero : Prop :=
  ∀ (n : Nat) (s : State) (rest : List HostEvent), s.inbox = List.replicate n .timerTick ++ rest →
    ∃ t, Host.Core.run Sys2Proof.core n s = .next t ∧ t.inbox = rest ∧ OnlyWrites [.dt, .st, .inbox] s t ∧
      (s.fault = .none → t.dt.toNat = s.dt.toNat - n ∧ t.st.toNat = s.st.toNat - n) ∧
      (s.fault ≠ .none → t.dt = s.dt ∧ t.st = s.st)

/-- `key_set(k, v)` sets the level of key `k` and nothing else; in a stopped machine it changes nothing (R120; D24). -/
def Obligations.KeySetSetsOneKey : Prop :=
  ∀ (s : State) (k : Key) (v : Bool) (rest : List HostEvent), s.inbox = .keySet k v :: rest →
    ∃ t, step s = .next t ∧ t.inbox = rest ∧ OnlyWrites [.key k, .inbox] s t ∧
      (s.fault = .none → t.keys[k.val] = v) ∧ (s.fault ≠ .none → t.keys[k.val] = s.keys[k.val])

/-- `load_image`: an image of at most 3584 bytes is copied to 512 upward and nothing else changes; a longer one
takes `Fatal(LOAD)` and writes nothing; in a stopped machine nothing changes (R43, R110; D6). -/
def Obligations.LoadImageCopiesOrTakesFatalLoad : Prop :=
  ∀ (s : State) (bytes : List Byte) (rest : List HostEvent), s.memWf → s.inbox = .loadImage bytes :: rest →
    ∃ t, step s = .next t ∧ t.inbox = rest ∧
      (s.fault = .none → bytes.length ≤ 3584 →
        (∀ k (h : k < bytes.length), t.byteAt (512 + k) = bytes[k]) ∧
        UnchangedExcept (fun e => e = .inbox ∨ ∃ k, k < bytes.length ∧ e = .mem (512 + k)) s t) ∧
      (s.fault = .none → 3584 < bytes.length → t.fault = .load ∧ OnlyWrites [.fault, .inbox] s t) ∧
      (s.fault ≠ .none → OnlyWrites [.inbox] s t)

/-- `display_read` changes no state, in any state, and gives the 2048 cells in row-major order: cell `(x, y)` at
index `y * 64 + x` (R121, R22; D25 and general knowledge G2). -/
def Obligations.DisplayReadIsRowMajor : Prop :=
  ∀ s : State, (∀ rest, s.inbox = .displayRead :: rest → step s = .next { s with inbox := rest }) ∧
    (displayCells s).length = 2048 ∧
    ∀ (x : Fin 64) (y : Fin 32), (displayCells s)[y.val * 64 + x.val]? = some (s.disp.on x y)

/-! ### Control flow -/

/-- `0000` NOP, which only advances `pc`; every other opcode of family 0 but `00E0` and `00EE` is illegal (R63). -/
def Obligations.NopOnlyAdvancesPc : Prop :=
  decode 0x0000 = .ok .nop ∧
  (∀ op : Opcode, op.toNat / 4096 = 0 → op ≠ 0x0000 → op ≠ 0x00E0 → op ≠ 0x00EE → decode op = .error (.badop op)) ∧
  ∀ s : State, ∃ t, exec .nop s = .next t ∧ t.pc = s.pc + 2 ∧ t.waiting = false ∧ OnlyWrites [.pc, .waiting] s t

/-- `1NNN` JP nnn: every target is accepted; after `1FFF` the next fetch is out of bounds (R65). -/
def Obligations.JumpSetsPcToImmediate : Prop :=
  ∀ (nnn : BitVec 12) (s : State),
    decode (formatNNN 0x1 nnn) = .ok (.jp nnn) ∧
    ∃ t, exec (.jp nnn) s = .next t ∧ t.pc.toNat = nnn.toNat ∧ t.waiting = false ∧ OnlyWrites [.pc, .waiting] s t ∧
      (nnn.toNat = 4095 → fetch t = .error .oob)

/-- `2NNN` CALL nnn: with a free entry the address after the call is pushed; with a full stack `Fatal(STACK)` is
taken and nothing else changes (R61, R66). -/
def Obligations.CallPushesReturnAddress : Prop :=
  ∀ (nnn : BitVec 12) (s : State),
    decode (formatNNN 0x2 nnn) = .ok (.call nnn) ∧
    (∀ k : Fin 16, s.sp.val = k.val →
      ∃ t, exec (.call nnn) s = .next t ∧ t.stack[k.val] = s.pc + 2 ∧ t.sp.val = k.val + 1 ∧
        t.pc.toNat = nnn.toNat ∧ t.waiting = false ∧ OnlyWrites [.pc, .waiting, .sp, .stack k] s t) ∧
    (s.sp.val = 16 → TakesFatal .stack s (exec (.call nnn) s))

/-- `00EE` RET: with an entry on the stack it is popped into `pc` as it is, whatever it is, and kept in its place (if
it is above 4094 the next fetch is out of bounds); with an empty stack `Fatal(STACK)` is taken and nothing else changes (R62, R64). -/
def Obligations.ReturnPopsIntoPc : Prop :=
  decode 0x00EE = .ok .ret ∧
  ∀ s : State,
    (∀ k : Fin 16, s.sp.val = k.val + 1 →
      ∃ t, exec .ret s = .next t ∧ t.pc = s.stack[k.val] ∧ t.sp.val = k.val ∧ t.waiting = false ∧
        OnlyWrites [.pc, .waiting, .sp] s t ∧ (4094 < s.stack[k.val].toNat → fetch t = .error .oob)) ∧
    (s.sp.val = 0 → TakesFatal .stack s (exec .ret s))

/-- `BNNN` JP V0, nnn: the exact sum with `V[0]`, not reduced modulo 4096 and not checked: above 4094 the
next fetch is out of bounds; no carry is recorded (R67). -/
def Obligations.JumpV0AddsRegisterZero : Prop :=
  ∀ (nnn : BitVec 12) (s : State),
    decode (formatNNN 0xB nnn) = .ok (.jpV0 nnn) ∧
    ∃ t, exec (.jpV0 nnn) s = .next t ∧ t.pc.toNat = nnn.toNat + (s.getV 0).toNat ∧ t.waiting = false ∧
      OnlyWrites [.pc, .waiting] s t ∧ (4094 < nnn.toNat + (s.getV 0).toNat → fetch t = .error .oob)

/-- A call followed by the return at its target comes back to the instruction after the call, with the stack
cursor where it was (R64, R66). -/
def Obligations.CallThenReturnComesBack : Prop :=
  ∀ (nnn : BitVec 12) (s : State), s.sp.val < 16 →
    ∃ t u, exec (.call nnn) s = .next t ∧ exec .ret t = .next u ∧ u.pc = s.pc + 2 ∧ u.sp = s.sp

/-! ### Skips -/

/-- `3XNN` and `4XNN`: two more than the next address if the register equals, or does not equal, the immediate
(R69, R70). -/
def Obligations.SkipOnImmediate : Prop :=
  ∀ (x : Reg) (nn : Byte) (s : State),
    (decode (formatXNN 0x3 x nn) = .ok (.seImm x nn) ∧
      ∃ t, exec (.seImm x nn) s = .next t ∧ t.pc = (if s.getV x = nn then s.pc + 4 else s.pc + 2) ∧
        t.waiting = false ∧ OnlyWrites [.pc, .waiting] s t) ∧
    (decode (formatXNN 0x4 x nn) = .ok (.sneImm x nn) ∧
      ∃ t, exec (.sneImm x nn) s = .next t ∧ t.pc = (if s.getV x ≠ nn then s.pc + 4 else s.pc + 2) ∧
        t.waiting = false ∧ OnlyWrites [.pc, .waiting] s t)

/-- `5XY0` and `9XY0`: the same on two registers; with another low nibble both are illegal (R71, R72). -/
def Obligations.SkipOnRegisters : Prop :=
  ∀ (x y : Reg) (s : State),
    (∀ n : BitVec 4, n ≠ 0 → decode (formatXYN 0x5 x y n) = .error (.badop (formatXYN 0x5 x y n)) ∧
      decode (formatXYN 0x9 x y n) = .error (.badop (formatXYN 0x9 x y n))) ∧
    (decode (formatXYN 0x5 x y 0) = .ok (.seReg x y) ∧
      ∃ t, exec (.seReg x y) s = .next t ∧ t.pc = (if s.getV x = s.getV y then s.pc + 4 else s.pc + 2) ∧
        t.waiting = false ∧ OnlyWrites [.pc, .waiting] s t) ∧
    (decode (formatXYN 0x9 x y 0) = .ok (.sneReg x y) ∧
      ∃ t, exec (.sneReg x y) s = .next t ∧ t.pc = (if s.getV x ≠ s.getV y then s.pc + 4 else s.pc + 2) ∧
        t.waiting = false ∧ OnlyWrites [.pc, .waiting] s t)

/-- `EX9E` skips iff the key whose number is the register's value is pressed, `EXA1` iff it is not; a value above 15
matches no key (R73, R74, R75; the spec's decision D14). -/
def Obligations.SkipOnKey : Prop :=
  ∀ (x : Reg) (s : State),
    (decode (formatXNN 0xE x 0x9E) = .ok (.skp x) ∧
      ∃ t, exec (.skp x) s = .next t ∧
        ((∃ k : Key, k.val = (s.getV x).toNat ∧ s.keys[k.val] = true) → t.pc = s.pc + 4) ∧
        ((¬ ∃ k : Key, k.val = (s.getV x).toNat ∧ s.keys[k.val] = true) → t.pc = s.pc + 2) ∧
        t.waiting = false ∧ OnlyWrites [.pc, .waiting] s t) ∧
    (decode (formatXNN 0xE x 0xA1) = .ok (.sknp x) ∧
      ∃ t, exec (.sknp x) s = .next t ∧
        ((∃ k : Key, k.val = (s.getV x).toNat ∧ s.keys[k.val] = true) → t.pc = s.pc + 2) ∧
        ((¬ ∃ k : Key, k.val = (s.getV x).toNat ∧ s.keys[k.val] = true) → t.pc = s.pc + 4) ∧
        t.waiting = false ∧ OnlyWrites [.pc, .waiting] s t)

/-! ### Registers, arithmetic, logic -/

/-- `6XNN` and `8XY0`: the register gets the immediate, or the other register's value; `X = 15` is an ordinary
destination (R77, R79). -/
def Obligations.LoadRegisterSetsVx : Prop :=
  ∀ (x y : Reg) (nn : Byte) (s : State),
    (decode (formatXNN 0x6 x nn) = .ok (.ldImm x nn) ∧
      ∃ t, exec (.ldImm x nn) s = .next t ∧ t.getV x = nn ∧ t.pc = s.pc + 2 ∧ t.waiting = false ∧
        OnlyWrites [.pc, .waiting, .V x] s t) ∧
    (decode (formatXYN 0x8 x y 0) = .ok (.ldReg x y) ∧
      ∃ t, exec (.ldReg x y) s = .next t ∧ t.getV x = s.getV y ∧ t.pc = s.pc + 2 ∧ t.waiting = false ∧
        OnlyWrites [.pc, .waiting, .V x] s t)

/-- `7XNN`: the sum modulo 256, no flag (R78). -/
def Obligations.AddImmediateWrapsWithoutFlag : Prop :=
  ∀ (x : Reg) (nn : Byte) (s : State),
    decode (formatXNN 0x7 x nn) = .ok (.addImm x nn) ∧
    ∃ t, exec (.addImm x nn) s = .next t ∧ (t.getV x).toNat = ((s.getV x).toNat + nn.toNat) % 256 ∧
      t.pc = s.pc + 2 ∧ t.waiting = false ∧ OnlyWrites [.pc, .waiting, .V x] s t

/-- `8XY1`, `8XY2`, `8XY3`: bitwise OR, AND, XOR into `V[X]`; `V[15]` only where `X = 15` names it (R80, R81, R82). -/
def Obligations.LogicOperationsAreBitwise : Prop :=
  ∀ (x y : Reg) (s : State),
    (decode (formatXYN 0x8 x y 1) = .ok (.orReg x y) ∧
      ∃ t, exec (.orReg x y) s = .next t ∧ t.pc = s.pc + 2 ∧ t.waiting = false ∧
        (∀ j, (t.getV x).getLsbD j = ((s.getV x).getLsbD j || (s.getV y).getLsbD j)) ∧
        OnlyWrites [.pc, .waiting, .V x] s t) ∧
    (decode (formatXYN 0x8 x y 2) = .ok (.andReg x y) ∧
      ∃ t, exec (.andReg x y) s = .next t ∧ t.pc = s.pc + 2 ∧ t.waiting = false ∧
        (∀ j, (t.getV x).getLsbD j = ((s.getV x).getLsbD j && (s.getV y).getLsbD j)) ∧
        OnlyWrites [.pc, .waiting, .V x] s t) ∧
    (decode (formatXYN 0x8 x y 3) = .ok (.xorReg x y) ∧
      ∃ t, exec (.xorReg x y) s = .next t ∧ t.pc = s.pc + 2 ∧ t.waiting = false ∧
        (∀ j, (t.getV x).getLsbD j = ((s.getV x).getLsbD j != (s.getV y).getLsbD j)) ∧
        OnlyWrites [.pc, .waiting, .V x] s t)

/-- `8XY4`: the sum modulo 256 in `V[X]` and the carry in `V[15]`; with `X = 15` the sum is lost and `V[15]` ends as
the carry (R83). -/
def Obligations.AddRegistersWithCarry : Prop :=
  ∀ (x y : Reg) (s : State),
    decode (formatXYN 0x8 x y 4) = .ok (.addReg x y) ∧
    ∃ t, exec (.addReg x y) s = .next t ∧
      (x ≠ VF → (t.getV x).toNat = ((s.getV x).toNat + (s.getV y).toNat) % 256) ∧
      t.getV VF = (if 255 < (s.getV x).toNat + (s.getV y).toNat then 1 else 0) ∧
      t.pc = s.pc + 2 ∧ t.waiting = false ∧ OnlyWrites [.pc, .waiting, .V x, .V VF] s t

/-- `8XY5` and `8XY7`: the difference modulo 256 in `V[X]` and the no-borrow in `V[15]`, 1 on equal operands; with
`X = 15` `V[15]` ends as the flag (R84, R86). -/
def Obligations.SubtractRegistersWithNoBorrow : Prop :=
  ∀ (x y : Reg) (s : State),
    (decode (formatXYN 0x8 x y 5) = .ok (.subReg x y) ∧
      ∃ t, exec (.subReg x y) s = .next t ∧
        (x ≠ VF → (t.getV x).toNat =
          (if (s.getV y).toNat ≤ (s.getV x).toNat then (s.getV x).toNat - (s.getV y).toNat
           else (s.getV x).toNat + 256 - (s.getV y).toNat)) ∧
        t.getV VF = (if (s.getV x).toNat < (s.getV y).toNat then 0 else 1) ∧
        t.pc = s.pc + 2 ∧ t.waiting = false ∧ OnlyWrites [.pc, .waiting, .V x, .V VF] s t) ∧
    (decode (formatXYN 0x8 x y 7) = .ok (.subnReg x y) ∧
      ∃ t, exec (.subnReg x y) s = .next t ∧
        (x ≠ VF → (t.getV x).toNat =
          (if (s.getV x).toNat ≤ (s.getV y).toNat then (s.getV y).toNat - (s.getV x).toNat
           else (s.getV y).toNat + 256 - (s.getV x).toNat)) ∧
        t.getV VF = (if (s.getV y).toNat < (s.getV x).toNat then 0 else 1) ∧
        t.pc = s.pc + 2 ∧ t.waiting = false ∧ OnlyWrites [.pc, .waiting, .V x, .V VF] s t)

/-- `8XY6` and `8XYE`: `V[X]` shifted by one, `V[15]` the bit shifted out, `Y` ignored; with `X = 15` `V[15]` ends as
the shifted result, which is the spec's own decision (R76, R85, R87; D10). -/
def Obligations.ShiftsCaptureTheBitShiftedOut : Prop :=
  ∀ (x y : Reg) (s : State),
    (decode (formatXYN 0x8 x y 6) = .ok (.shr x y) ∧
      ∃ t, exec (.shr x y) s = .next t ∧ (t.getV x).toNat = (s.getV x).toNat / 2 ∧
        (x ≠ VF → (t.getV VF).toNat = (s.getV x).toNat % 2) ∧
        t.pc = s.pc + 2 ∧ t.waiting = false ∧ OnlyWrites [.pc, .waiting, .V x, .V VF] s t) ∧
    (decode (formatXYN 0x8 x y 0xE) = .ok (.shl x y) ∧
      ∃ t, exec (.shl x y) s = .next t ∧ (t.getV x).toNat = 2 * (s.getV x).toNat % 256 ∧
        (x ≠ VF → (t.getV VF).toNat = (s.getV x).toNat / 128) ∧
        t.pc = s.pc + 2 ∧ t.waiting = false ∧ OnlyWrites [.pc, .waiting, .V x, .V VF] s t)

/-- `CXNN`: the immediate AND the random byte of the tick, for every such byte; no flag (R88; the byte as an input of
the tick is the spec's decision D12, its place in the state the model's, log entry 4). -/
def Obligations.RandomIsMaskedByImmediate : Prop :=
  ∀ (x : Reg) (nn : Byte) (s : State),
    decode (formatXNN 0xC x nn) = .ok (.rnd x nn) ∧
    ∃ t, exec (.rnd x nn) s = .next t ∧ (∀ j, (t.getV x).getLsbD j = (nn.getLsbD j && s.rnd.getLsbD j)) ∧
      t.pc = s.pc + 2 ∧ t.waiting = false ∧ OnlyWrites [.pc, .waiting, .V x] s t

/-- The random byte is ignored by every other instruction (R88). -/
def Obligations.RandomByteReadOnlyByRnd : Prop :=
  ∀ (i : Instr) (s t : State) (r : Byte), (∀ x nn, i ≠ .rnd x nn) → exec i s = .next t →
    exec i { s with rnd := r } = .next { t with rnd := r }

/-! ### Index register and memory -/

/-- `ANNN`: `I` gets the immediate (R90). -/
def Obligations.LoadIndexImmediate : Prop :=
  ∀ (nnn : BitVec 12) (s : State),
    decode (formatNNN 0xA nnn) = .ok (.ldI nnn) ∧
    ∃ t, exec (.ldI nnn) s = .next t ∧ t.I.toNat = nnn.toNat ∧ t.pc = s.pc + 2 ∧ t.waiting = false ∧
      OnlyWrites [.pc, .waiting, .I] s t

/-- `FX1E` adds the register to `I` modulo 65536 without a flag (R91; D8); `FX29` sets `I` to 5 times the low nibble
(R92; D16). -/
def Obligations.IndexAddAndGlyphAddress : Prop :=
  ∀ (x : Reg) (s : State),
    (decode (formatXNN 0xF x 0x1E) = .ok (.addI x) ∧
      ∃ t, exec (.addI x) s = .next t ∧ t.I.toNat = (s.I.toNat + (s.getV x).toNat) % 65536 ∧
        t.pc = s.pc + 2 ∧ t.waiting = false ∧ OnlyWrites [.pc, .waiting, .I] s t) ∧
    (decode (formatXNN 0xF x 0x29) = .ok (.ldF x) ∧
      ∃ t, exec (.ldF x) s = .next t ∧ t.I.toNat = 5 * ((s.getV x).toNat % 16) ∧
        t.pc = s.pc + 2 ∧ t.waiting = false ∧ OnlyWrites [.pc, .waiting, .I] s t)

/-- `FX33`: hundreds, tens and ones at `I`, `I+1`, `I+2`, `I` and the registers unchanged; or, past the end of memory,
`Fatal(OOB)` and no byte written (R93, R96; D18, D19). -/
def Obligations.StoreDecimalDigits : Prop :=
  ∀ (x : Reg) (s : State), s.memWf →
    decode (formatXNN 0xF x 0x33) = .ok (.ldB x) ∧
    (indexAddr s + 2 ≤ 4095 →
      ∃ t, exec (.ldB x) s = .next t ∧
        (t.byteAt (indexAddr s)).toNat = (s.getV x).toNat / 100 ∧
        (t.byteAt (indexAddr s + 1)).toNat = (s.getV x).toNat / 10 % 10 ∧
        (t.byteAt (indexAddr s + 2)).toNat = (s.getV x).toNat % 10 ∧
        t.pc = s.pc + 2 ∧ t.waiting = false ∧
        UnchangedExcept (fun e => e ∈ [.pc, .waiting] ∨ ∃ k, k < 3 ∧ e = .mem (indexAddr s + k)) s t) ∧
    (4095 < indexAddr s + 2 → TakesFatal .oob s (exec (.ldB x) s))

/-- `FX55`: `V[0]` .. `V[X]` at `I` upward, `I` and the registers unchanged; or `Fatal(OOB)` and no byte written (R94,
R96; D18). -/
def Obligations.StoreRegistersAtIndex : Prop :=
  ∀ (x : Reg) (s : State), s.memWf →
    decode (formatXNN 0xF x 0x55) = .ok (.storeRegs x) ∧
    (indexAddr s + x.val ≤ 4095 →
      ∃ t, exec (.storeRegs x) s = .next t ∧
        (∀ i : Reg, i ≤ x → t.byteAt (indexAddr s + i.val) = s.getV i) ∧
        t.pc = s.pc + 2 ∧ t.waiting = false ∧
        UnchangedExcept (fun e => e ∈ [.pc, .waiting] ∨ ∃ k, k ≤ x.val ∧ e = .mem (indexAddr s + k)) s t) ∧
    (4095 < indexAddr s + x.val → TakesFatal .oob s (exec (.storeRegs x) s))

/-- `FX65`: `V[0]` .. `V[X]` from `I` upward, `I`, memory and the other registers unchanged; or `Fatal(OOB)` and no
register written (R95, R96; D18). -/
def Obligations.LoadRegistersFromIndex : Prop :=
  ∀ (x : Reg) (s : State),
    decode (formatXNN 0xF x 0x65) = .ok (.loadRegs x) ∧
    (indexAddr s + x.val ≤ 4095 →
      ∃ t, exec (.loadRegs x) s = .next t ∧
        (∀ i : Reg, i ≤ x → t.getV i = s.byteAt (indexAddr s + i.val)) ∧
        t.pc = s.pc + 2 ∧ t.waiting = false ∧
        UnchangedExcept (fun e => e ∈ [.pc, .waiting] ∨ ∃ i : Reg, i ≤ x ∧ e = .V i) s t) ∧
    (4095 < indexAddr s + x.val → TakesFatal .oob s (exec (.loadRegs x) s))

/-- A store into the instruction stream is seen by the next fetch: after `FX55` a fetch at a stored pair of bytes
reads the registers stored there (R42). -/
def Obligations.FetchSeesStoredRegisters : Prop :=
  ∀ (x i j : Reg) (s : State), s.memWf → indexAddr s + x.val ≤ 4095 → j.val = i.val + 1 → j ≤ x →
    ∃ t, exec (.storeRegs x) s = .next t ∧
      fetch (t.setPc (BitVec.ofNat 16 (indexAddr s + i.val))) = .ok (opcodeOf (s.getV i) (s.getV j))

/-- The canonical form is unique: two memories in it that read the same everywhere, with the same font table, are the
same data (the model's representation of R23, R31; log entry 19). -/
def Obligations.CanonicalMemoryIsUnique : Prop :=
  ∀ (f : Config.Font) (m n : Memory), m.wf f → n.wf f → (∀ a, m.read f a = n.read f a) → m = n

/-! ### Display -/

/-- `00E0` CLS: every cell off, `V[15]` not written (R98). -/
def Obligations.ClearTurnsEveryCellOff : Prop :=
  decode 0x00E0 = .ok .cls ∧
  ∀ s : State, ∃ t, exec .cls s = .next t ∧ (∀ cx cy, t.disp.on cx cy = false) ∧ t.pc = s.pc + 2 ∧
    t.waiting = false ∧ UnchangedExcept (fun e => e ∈ [.pc, .waiting] ∨ ∃ cx cy, e = .cell cx cy) s t

/-- `DXYN`, with either value of `SPRITE_EDGE`: a cell changes iff a set pixel of the sprite falls on it; `V[15]` is 1
iff some cell went from on to off; `N = 0` checks and draws nothing; out-of-range sprite bytes take `Fatal(OOB)` (R97,
R99; D13, D27; the geometry is log entry 11). -/
def Obligations.DrawXorsSpriteAndReportsCollision : Prop :=
  ∀ (x y : Reg) (n : BitVec 4) (s : State),
    decode (formatXYN 0xD x y n) = .ok (.drw x y n) ∧
    ((n.toNat = 0 ∨ indexAddr s + n.toNat - 1 ≤ 4095) →
      ∃ t, exec (.drw x y n) s = .next t ∧
        (∀ cx cy, SpriteCovers s x y n.toNat cx cy → t.disp.on cx cy = !s.disp.on cx cy) ∧
        (∀ cx cy, ¬ SpriteCovers s x y n.toNat cx cy → t.disp.on cx cy = s.disp.on cx cy) ∧
        ((∃ cx cy, s.disp.on cx cy = true ∧ t.disp.on cx cy = false) → t.getV VF = 1) ∧
        ((¬ ∃ cx cy, s.disp.on cx cy = true ∧ t.disp.on cx cy = false) → t.getV VF = 0) ∧
        t.pc = s.pc + 2 ∧ t.waiting = false ∧
        UnchangedExcept (fun e => e ∈ [.pc, .waiting, .V VF] ∨ ∃ cx cy, e = .cell cx cy) s t) ∧
    (0 < n.toNat → 4095 < indexAddr s + n.toNat - 1 → TakesFatal .oob s (exec (.drw x y n) s))

/-- Drawing the same sprite twice at the same place restores the display, with either value of `SPRITE_EDGE` (D13, log
entry 2); the second draw reports a collision iff some cell the sprite covers was off before the first (R99; log entry
16: the spec's derived remark on the second flag holds only then). -/
def Obligations.DrawTwiceRestoresDisplay : Prop :=
  ∀ (x y : Reg) (n : BitVec 4) (s t : State), (n.toNat = 0 ∨ indexAddr s + n.toNat - 1 ≤ 4095) →
    exec (.drw x y n) s = .next t → t.getV x = s.getV x → t.getV y = s.getV y →
    ∃ u, exec (.drw x y n) t = .next u ∧ (∀ cx cy, u.disp.on cx cy = s.disp.on cx cy) ∧
      (u.getV VF = 1 ↔ ∃ cx cy, SpriteCovers s x y n.toNat cx cy ∧ s.disp.on cx cy = false)

/-- The drawing alone, with the value of the parameter `SPRITE_EDGE` that is not its default: with `wrap`, each pixel
falls on the cell of its coordinates modulo the display, and no pixel is lost (R99; D13, log entry 2). -/
def Obligations.WrappedSpriteXorsModuloDisplay : Prop :=
  ∀ (d : Display) (vx vy : Byte) (rows : List Byte), rows.length ≤ 15 →
    (∀ (cx : Fin 64) (cy : Fin 32),
      (drawSprite .wrap d vx vy rows).disp.on cx cy = true ↔
        ¬ (d.on cx cy = true ↔ ∃ (r : Fin rows.length) (c : Fin 8),
          (vx.toNat + c.val) % 64 = cx.val ∧ (vy.toNat + r.val) % 32 = cy.val ∧
            rows[r.val].getLsbD (7 - c.val) = true)) ∧
    ((drawSprite .wrap d vx vy rows).hit = true ↔
      ∃ cx cy, d.on cx cy = true ∧ (drawSprite .wrap d vx vy rows).disp.on cx cy = false)

/-! ### Timers and keys -/

/-- `FX07`, `FX15`, `FX18`: the delay timer into the register, the register into the delay timer, the register into the
sound timer (R101, R102, R103), whose output follows at once: that the output is `st != 0` is log entry 21, PRESUMED
(R122, general knowledge G4, D21). -/
def Obligations.TimerInstructionsMoveTimers : Prop :=
  ∀ (x : Reg) (s : State),
    (decode (formatXNN 0xF x 0x07) = .ok (.ldVxDt x) ∧
      ∃ t, exec (.ldVxDt x) s = .next t ∧ t.getV x = s.dt ∧ t.pc = s.pc + 2 ∧ t.waiting = false ∧
        OnlyWrites [.pc, .waiting, .V x] s t) ∧
    (decode (formatXNN 0xF x 0x15) = .ok (.ldDtVx x) ∧
      ∃ t, exec (.ldDtVx x) s = .next t ∧ t.dt = s.getV x ∧ t.pc = s.pc + 2 ∧ t.waiting = false ∧
        OnlyWrites [.pc, .waiting, .dt] s t) ∧
    (decode (formatXNN 0xF x 0x18) = .ok (.ldStVx x) ∧
      ∃ t, exec (.ldStVx x) s = .next t ∧ t.st = s.getV x ∧ (soundOn t = true ↔ s.getV x ≠ 0) ∧
        t.pc = s.pc + 2 ∧ t.waiting = false ∧ OnlyWrites [.pc, .waiting, .st] s t)

/-- `FX0A`: with no key down only `waiting` changes and `pc` stays at the instruction; with keys down the least is
stored and the instruction completes (R104; the spec's decision D15 on the key, log entry 3). -/
def Obligations.KeyWaitHoldsOrStoresLeastKey : Prop :=
  ∀ (x : Reg) (s : State),
    decode (formatXNN 0xF x 0x0A) = .ok (.ldVxK x) ∧
    ((∀ k : Key, s.keys[k.val] = false) →
      ∃ t, exec (.ldVxK x) s = .next t ∧ t.waiting = true ∧ OnlyWrites [.waiting] s t) ∧
    (∀ k : Key, s.keys[k.val] = true → (∀ j : Key, j < k → s.keys[j.val] = false) →
      ∃ t, exec (.ldVxK x) s = .next t ∧ (t.getV x).toNat = k.val ∧ t.pc = s.pc + 2 ∧ t.waiting = false ∧
        OnlyWrites [.pc, .waiting, .V x] s t)

/-! ### The whole machine -/

/-- THE FRAME OF EVERY INSTRUCTION: nothing is written but what the spec's "written by" lists and the instruction's
own rule name, element by element: `disp` only by `00E0` and `DXYN`, `mem` only by `FX33` and `FX55`, the stack only by
`2NNN` and `00EE`, `keys` by none, and so on (R13 to R25). -/
def Obligations.InstructionsWriteOnlyTheirElements : Prop :=
  ∀ (i : Instr) (s t : State), s.memWf → exec i s = .next t → UnchangedExcept (mayWrite s i) s t

/-- The state after reset meets the invariant (R29). -/
def Obligations.ResetMeetsInv : Prop := Inv State.reset

/-- Every step, from every state that meets the invariant and with every event queued, gives a state that meets it
(R15, R29). -/
def Obligations.StepKeepsInv : Prop :=
  ∀ s t : State, Inv s → step s = .next t → Inv t

/-- In every state reachable by any sequence of events: `pc <= 4350`, the valid stack entries are at most 4096,
`sp <= 16`, `fault <= 4`, and memory is canonical (R29, which the spec marks as derived). -/
def Obligations.ReachableStatesMeetR29 : Prop :=
  ∀ s : State, Reachable s →
    s.pc.toNat ≤ 4350 ∧ s.sp.val ≤ 16 ∧ s.fault.code.toNat ≤ 4 ∧ s.memWf ∧
      ∀ i : Fin 16, i.val < s.sp.val → s.stack[i.val].toNat ≤ 4096

/-- No rule's outcome depends on `waiting`: two CPU ticks from states that differ in it alone end in states that differ
at most in it, and in the same state unless the machine is stopped (R25). -/
def Obligations.WaitingInfluencesNothing : Prop :=
  ∀ (rnd : Byte) (b : Bool) (s : State), ∃ t t',
    cpuTick rnd s = .next t ∧ cpuTick rnd { s with waiting := b } = .next t' ∧
      t' = { t with waiting := t'.waiting } ∧ (t.fault = .none → t' = t)

/-- Popped stack entries are never read: two states that differ in them alone stay so, whatever the step (R17). -/
def Obligations.StaleStackEntriesAreUnobservable : Prop :=
  ∀ s s' t : State, SameButStaleStack s s' → step s = .next t →
    ∃ t', step s' = .next t' ∧ SameButStaleStack t t'

/-- A parked machine stays as it is under CPU ticks: no element of the machine changes, `pc` included (R60). -/
def Obligations.ParkedMachineStaysParked : Prop :=
  ∀ (rnd : Byte) (s : State), Parked s → cpuTick rnd s = .next { s with rnd := rnd }

/-- Ticking after reset without a program: 1792 no-operations, then `Fatal(OOB)` at `pc = 4096` (R130). That the steps
from `State.reset` are CPU ticks is the model's choice (log entry 5). -/
def Obligations.TickingWithoutProgramEndsAt4096 : Prop :=
  (∀ k : Nat, k ≤ 1792 →
    ∃ t, Host.Core.run Sys2Proof.core k State.reset = .next t ∧ t.pc.toNat = 512 + 2 * k ∧
      OnlyWrites [.pc, .rnd, .draws] State.reset t) ∧
  ∃ t, Host.Core.run Sys2Proof.core 1793 State.reset = .next t ∧ t.pc.toNat = 4096 ∧ t.fault = .oob

/-- Zeroed memory runs as no-operations, from any running state of a host that issues CPU ticks: `k` steps over `2k` zero
bytes advance `pc` by `2k` and change nothing else; at `pc = 4096` the next step takes `Fatal(OOB)` (R63, R130). That
such a host issues nothing else is the model's (log entry 5). -/
def Obligations.ZeroedMemoryRunsAsNoOperations : Prop :=
  ∀ (k : Nat) (s : State), s.fault = .none → s.inbox = [] → s.idle = .cpuTicks → s.pc.toNat + 2 * k ≤ 4096 →
    (∀ a, s.pc.toNat ≤ a → a < s.pc.toNat + 2 * k → s.byteAt a = 0) →
    ∃ t, Host.Core.run Sys2Proof.core k s = .next t ∧ t.pc.toNat = s.pc.toNat + 2 * k ∧
      OnlyWrites [.pc, .waiting, .rnd, .draws] s t ∧ (0 < k → t.waiting = false) ∧
      (s.pc.toNat + 2 * k = 4096 → ∃ u, step t = .next u ∧ u.pc = t.pc ∧ u.fault = .oob)

/-! ### The machine and the host -/

/-- There is no other state: what an event leaves of the twelve elements depends on them, on the parameters and on the
event alone, and no event changes the parameters or what the host holds but the sampled `rnd` (R26, R59). -/
def Obligations.EventsReadOnlyTheTwelveElements : Prop :=
  ∀ (e : HostEvent) (s s' : State), s'.toCoreState = s.toCoreState → s'.params = s.params →
    ∃ t t', handleEvent e s = .next t ∧ handleEvent e s' = .next t' ∧ t'.toCoreState = t.toCoreState ∧
      t.params = s.params ∧ t.draws = s.draws ∧ t.inbox = s.inbox ∧ t.idle = s.idle

/-- A run takes the queued events in order, one a step, each reading what the one before left: every finite sequence of
events is a run (R6). -/
def Obligations.QueuedEventsAreTakenInOrder : Prop :=
  ∀ (es rest : List HostEvent) (s : State), s.inbox = es ++ rest →
    ∃ t, Host.Core.run Sys2Proof.core es.length s = .next t ∧ t.inbox = rest ∧
      t.toCoreState = (es.foldl afterEvent s).toCoreState

/-- With no event queued the host goes on without end: any sequence of events repeated for ever is a run; a host nothing
is known about issues free events, and one that issues CPU ticks free random bytes (R6: a run may be infinite; log
entries 4 and 5). -/
def Obligations.IdleHostGoesOnWithoutEnd : Prop :=
  ∀ s : State, s.inbox = [] →
    (∀ e others, s.idle = .repeats e others → ∀ k : Nat,
      ∃ t, Host.Core.run Sys2Proof.core (k * (others.length + 1)) s = .next t ∧ t.inbox = [] ∧ t.idle = s.idle ∧
        t.toCoreState = ((List.replicate k (e :: others)).flatten.foldl afterEvent s).toCoreState) ∧
    (s.idle = .free → step s = handleEvent (Config.freeEvent s.draws) { s with draws := s.draws + 1 }) ∧
    (s.idle = .cpuTicks → step s = handleEvent (.cpuTick (Config.freeRnd s.draws)) { s with draws := s.draws + 1 })
end

