-- ==== Sys2Proof/Laws/Decode.lean ====
section
/-! SUPPORT. The formats and the fields as numbers, and the fields of each format. -/

namespace Sys2Proof

theorem toNat_append_add {m n : Nat} (a : BitVec m) (b : BitVec n) : (a ++ b).toNat = a.toNat * 2 ^ n + b.toNat := by
  rw [BitVec.toNat_append, ← Nat.shiftLeft_add_eq_or_of_lt b.isLt, Nat.shiftLeft_eq]

theorem toNat_formatNNN (f : BitVec 4) (nnn : BitVec 12) : (formatNNN f nnn).toNat = f.toNat * 4096 + nnn.toNat :=
  toNat_append_add f nnn

theorem toNat_formatXNN (f : BitVec 4) (x : Reg) (nn : Byte) :
    (formatXNN f x nn).toNat = f.toNat * 4096 + x.val * 256 + nn.toNat := by
  simp only [formatXNN, toNat_append_add, BitVec.toNat_ofFin]
  omega

theorem toNat_formatXYN (f : BitVec 4) (x y : Reg) (n : BitVec 4) :
    (formatXYN f x y n).toNat = f.toNat * 4096 + x.val * 256 + y.val * 16 + n.toNat := by
  simp only [formatXYN, toNat_append_add, BitVec.toNat_ofFin]
  omega

theorem toNat_opcodeOf (hi lo : Byte) : (opcodeOf hi lo).toNat = hi.toNat * 256 + lo.toNat :=
  toNat_append_add hi lo

/-! The fields as numbers (R46). -/

theorem toNat_fieldF (op : Opcode) : (fieldF op).toNat = op.toNat / 4096 := by
  have := op.isLt
  simp only [fieldF, BitVec.extractLsb'_toNat, Nat.shiftRight_eq_div_pow]
  omega

theorem val_fieldX (op : Opcode) : (fieldX op).val = op.toNat / 256 % 16 := by
  simp only [fieldX, BitVec.val_toFin, BitVec.extractLsb'_toNat, Nat.shiftRight_eq_div_pow]

theorem val_fieldY (op : Opcode) : (fieldY op).val = op.toNat / 16 % 16 := by
  simp only [fieldY, BitVec.val_toFin, BitVec.extractLsb'_toNat, Nat.shiftRight_eq_div_pow]

theorem toNat_fieldN (op : Opcode) : (fieldN op).toNat = op.toNat % 16 := by
  simp [fieldN]

theorem toNat_fieldNN (op : Opcode) : (fieldNN op).toNat = op.toNat % 256 := by
  simp [fieldNN]

theorem toNat_fieldNNN (op : Opcode) : (fieldNNN op).toNat = op.toNat % 4096 := by
  simp [fieldNNN]

/-! The fields of each format. -/

section fields
variable (f n : BitVec 4) (x y : Reg) (nn : Byte) (nnn : BitVec 12)

@[simp] theorem fieldF_formatNNN : fieldF (formatNNN f nnn) = f := by
  apply BitVec.eq_of_toNat_eq
  have := nnn.isLt
  rw [toNat_fieldF, toNat_formatNNN]
  omega

@[simp] theorem fieldNNN_formatNNN : fieldNNN (formatNNN f nnn) = nnn := by
  apply BitVec.eq_of_toNat_eq
  have := nnn.isLt
  rw [toNat_fieldNNN, toNat_formatNNN]
  omega

@[simp] theorem fieldF_formatXNN : fieldF (formatXNN f x nn) = f := by
  apply BitVec.eq_of_toNat_eq
  have := nn.isLt
  have := x.isLt
  rw [toNat_fieldF, toNat_formatXNN]
  omega

@[simp] theorem fieldX_formatXNN : fieldX (formatXNN f x nn) = x := by
  apply Fin.eq_of_val_eq
  have := nn.isLt
  have := x.isLt
  rw [val_fieldX, toNat_formatXNN]
  omega

@[simp] theorem fieldNN_formatXNN : fieldNN (formatXNN f x nn) = nn := by
  apply BitVec.eq_of_toNat_eq
  have := nn.isLt
  rw [toNat_fieldNN, toNat_formatXNN]
  omega

@[simp] theorem fieldF_formatXYN : fieldF (formatXYN f x y n) = f := by
  apply BitVec.eq_of_toNat_eq
  have := x.isLt
  have := y.isLt
  have := n.isLt
  rw [toNat_fieldF, toNat_formatXYN]
  omega

@[simp] theorem fieldX_formatXYN : fieldX (formatXYN f x y n) = x := by
  apply Fin.eq_of_val_eq
  have := x.isLt
  have := y.isLt
  have := n.isLt
  rw [val_fieldX, toNat_formatXYN]
  omega

@[simp] theorem fieldY_formatXYN : fieldY (formatXYN f x y n) = y := by
  apply Fin.eq_of_val_eq
  have := y.isLt
  have := n.isLt
  rw [val_fieldY, toNat_formatXYN]
  omega

@[simp] theorem fieldN_formatXYN : fieldN (formatXYN f x y n) = n := by
  apply BitVec.eq_of_toNat_eq
  have := n.isLt
  rw [toNat_fieldN, toNat_formatXYN]
  omega

end fields

/-- The two bytes of an opcode put together again (R36). -/
@[simp] theorem opcodeOf_highByte_lowByte (op : Opcode) : opcodeOf (highByte op) (lowByte op) = op := by
  apply BitVec.eq_of_toNat_eq
  have := op.isLt
  simp only [toNat_opcodeOf, highByte, lowByte, BitVec.extractLsb'_toNat, Nat.shiftRight_eq_div_pow]
  omega

/-! What the masks of R47 keep of an opcode. -/

theorem getLsbD_formatNNN (f : BitVec 4) (nnn : BitVec 12) (i : Nat) :
    (formatNNN f nnn).getLsbD i = if i < 12 then nnn.getLsbD i else f.getLsbD (i - 12) :=
  BitVec.getLsbD_append

theorem getLsbD_formatXNN (f : BitVec 4) (x : Reg) (nn : Byte) (i : Nat) :
    (formatXNN f x nn).getLsbD i = if i < 8 then nn.getLsbD i else (f ++ BitVec.ofFin (w := 4) x).getLsbD (i - 8) :=
  BitVec.getLsbD_append

theorem getLsbD_formatXYN (f : BitVec 4) (x y : Reg) (n : BitVec 4) (i : Nat) :
    (formatXYN f x y n).getLsbD i =
      if i < 4 then n.getLsbD i else (f ++ BitVec.ofFin (w := 4) x ++ BitVec.ofFin (w := 4) y).getLsbD (i - 4) :=
  BitVec.getLsbD_append

theorem and_F000 (op : Opcode) : op &&& 0xF000 = formatNNN (fieldF op) 0 := by
  apply BitVec.eq_of_getLsbD_eq
  intro i hi
  rw [getLsbD_formatNNN]
  interval_cases i <;> simp [fieldF]

theorem and_F0FF (op : Opcode) : op &&& 0xF0FF = formatXNN (fieldF op) 0 (fieldNN op) := by
  apply BitVec.eq_of_getLsbD_eq
  intro i hi
  rw [getLsbD_formatXNN, BitVec.getLsbD_append]
  interval_cases i <;> simp [fieldF, fieldNN]

theorem and_F00F (op : Opcode) : op &&& 0xF00F = formatXYN (fieldF op) 0 0 (fieldN op) := by
  apply BitVec.eq_of_getLsbD_eq
  intro i hi
  rw [getLsbD_formatXYN, BitVec.getLsbD_append, BitVec.getLsbD_append]
  interval_cases i <;> simp [fieldF, fieldN]

end Sys2Proof
end

