-- ==== Sys2Proof/Laws/State.lean ====
section
/-! SUPPORT. One lemma per field per update of the state, true by unfolding (the fields of `advance` have two
written ones: `pc` and `waiting`). -/

namespace Sys2Proof.Machine.State

variable (s : State)

@[simp] theorem setV_V (i : Reg) (v : Byte) : (s.setV i v).V = s.V.set i.val v := rfl
@[simp] theorem setV_pc (i : Reg) (v : Byte) : (s.setV i v).pc = s.pc := rfl
@[simp] theorem setV_I (i : Reg) (v : Byte) : (s.setV i v).I = s.I := rfl
@[simp] theorem setV_stack (i : Reg) (v : Byte) : (s.setV i v).stack = s.stack := rfl
@[simp] theorem setV_sp (i : Reg) (v : Byte) : (s.setV i v).sp = s.sp := rfl
@[simp] theorem setV_dt (i : Reg) (v : Byte) : (s.setV i v).dt = s.dt := rfl
@[simp] theorem setV_st (i : Reg) (v : Byte) : (s.setV i v).st = s.st := rfl
@[simp] theorem setV_keys (i : Reg) (v : Byte) : (s.setV i v).keys = s.keys := rfl
@[simp] theorem setV_disp (i : Reg) (v : Byte) : (s.setV i v).disp = s.disp := rfl
@[simp] theorem setV_mem (i : Reg) (v : Byte) : (s.setV i v).mem = s.mem := rfl
@[simp] theorem setV_fault (i : Reg) (v : Byte) : (s.setV i v).fault = s.fault := rfl
@[simp] theorem setV_waiting (i : Reg) (v : Byte) : (s.setV i v).waiting = s.waiting := rfl
@[simp] theorem setV_rnd (i : Reg) (v : Byte) : (s.setV i v).rnd = s.rnd := rfl
@[simp] theorem setV_draws (i : Reg) (v : Byte) : (s.setV i v).draws = s.draws := rfl
@[simp] theorem setV_inbox (i : Reg) (v : Byte) : (s.setV i v).inbox = s.inbox := rfl
@[simp] theorem setV_params (i : Reg) (v : Byte) : (s.setV i v).params = s.params := rfl
@[simp] theorem setV_idle (i : Reg) (v : Byte) : (s.setV i v).idle = s.idle := rfl

@[simp] theorem setVs_pc (bs : List Byte) : (s.setVs bs).pc = s.pc := rfl
@[simp] theorem setVs_I (bs : List Byte) : (s.setVs bs).I = s.I := rfl
@[simp] theorem setVs_stack (bs : List Byte) : (s.setVs bs).stack = s.stack := rfl
@[simp] theorem setVs_sp (bs : List Byte) : (s.setVs bs).sp = s.sp := rfl
@[simp] theorem setVs_dt (bs : List Byte) : (s.setVs bs).dt = s.dt := rfl
@[simp] theorem setVs_st (bs : List Byte) : (s.setVs bs).st = s.st := rfl
@[simp] theorem setVs_keys (bs : List Byte) : (s.setVs bs).keys = s.keys := rfl
@[simp] theorem setVs_disp (bs : List Byte) : (s.setVs bs).disp = s.disp := rfl
@[simp] theorem setVs_mem (bs : List Byte) : (s.setVs bs).mem = s.mem := rfl
@[simp] theorem setVs_fault (bs : List Byte) : (s.setVs bs).fault = s.fault := rfl
@[simp] theorem setVs_waiting (bs : List Byte) : (s.setVs bs).waiting = s.waiting := rfl
@[simp] theorem setVs_rnd (bs : List Byte) : (s.setVs bs).rnd = s.rnd := rfl
@[simp] theorem setVs_draws (bs : List Byte) : (s.setVs bs).draws = s.draws := rfl
@[simp] theorem setVs_inbox (bs : List Byte) : (s.setVs bs).inbox = s.inbox := rfl
@[simp] theorem setVs_params (bs : List Byte) : (s.setVs bs).params = s.params := rfl
@[simp] theorem setVs_idle (bs : List Byte) : (s.setVs bs).idle = s.idle := rfl

@[simp] theorem setPc_V (v : Word) : (s.setPc v).V = s.V := rfl
@[simp] theorem setPc_pc (v : Word) : (s.setPc v).pc = v := rfl
@[simp] theorem setPc_I (v : Word) : (s.setPc v).I = s.I := rfl
@[simp] theorem setPc_stack (v : Word) : (s.setPc v).stack = s.stack := rfl
@[simp] theorem setPc_sp (v : Word) : (s.setPc v).sp = s.sp := rfl
@[simp] theorem setPc_dt (v : Word) : (s.setPc v).dt = s.dt := rfl
@[simp] theorem setPc_st (v : Word) : (s.setPc v).st = s.st := rfl
@[simp] theorem setPc_keys (v : Word) : (s.setPc v).keys = s.keys := rfl
@[simp] theorem setPc_disp (v : Word) : (s.setPc v).disp = s.disp := rfl
@[simp] theorem setPc_mem (v : Word) : (s.setPc v).mem = s.mem := rfl
@[simp] theorem setPc_fault (v : Word) : (s.setPc v).fault = s.fault := rfl
@[simp] theorem setPc_waiting (v : Word) : (s.setPc v).waiting = s.waiting := rfl
@[simp] theorem setPc_rnd (v : Word) : (s.setPc v).rnd = s.rnd := rfl
@[simp] theorem setPc_draws (v : Word) : (s.setPc v).draws = s.draws := rfl
@[simp] theorem setPc_inbox (v : Word) : (s.setPc v).inbox = s.inbox := rfl
@[simp] theorem setPc_params (v : Word) : (s.setPc v).params = s.params := rfl
@[simp] theorem setPc_idle (v : Word) : (s.setPc v).idle = s.idle := rfl

@[simp] theorem setI_V (v : Word) : (s.setI v).V = s.V := rfl
@[simp] theorem setI_pc (v : Word) : (s.setI v).pc = s.pc := rfl
@[simp] theorem setI_I (v : Word) : (s.setI v).I = v := rfl
@[simp] theorem setI_stack (v : Word) : (s.setI v).stack = s.stack := rfl
@[simp] theorem setI_sp (v : Word) : (s.setI v).sp = s.sp := rfl
@[simp] theorem setI_dt (v : Word) : (s.setI v).dt = s.dt := rfl
@[simp] theorem setI_st (v : Word) : (s.setI v).st = s.st := rfl
@[simp] theorem setI_keys (v : Word) : (s.setI v).keys = s.keys := rfl
@[simp] theorem setI_disp (v : Word) : (s.setI v).disp = s.disp := rfl
@[simp] theorem setI_mem (v : Word) : (s.setI v).mem = s.mem := rfl
@[simp] theorem setI_fault (v : Word) : (s.setI v).fault = s.fault := rfl
@[simp] theorem setI_waiting (v : Word) : (s.setI v).waiting = s.waiting := rfl
@[simp] theorem setI_rnd (v : Word) : (s.setI v).rnd = s.rnd := rfl
@[simp] theorem setI_draws (v : Word) : (s.setI v).draws = s.draws := rfl
@[simp] theorem setI_inbox (v : Word) : (s.setI v).inbox = s.inbox := rfl
@[simp] theorem setI_params (v : Word) : (s.setI v).params = s.params := rfl
@[simp] theorem setI_idle (v : Word) : (s.setI v).idle = s.idle := rfl

@[simp] theorem setDt_V (v : Byte) : (s.setDt v).V = s.V := rfl
@[simp] theorem setDt_pc (v : Byte) : (s.setDt v).pc = s.pc := rfl
@[simp] theorem setDt_I (v : Byte) : (s.setDt v).I = s.I := rfl
@[simp] theorem setDt_stack (v : Byte) : (s.setDt v).stack = s.stack := rfl
@[simp] theorem setDt_sp (v : Byte) : (s.setDt v).sp = s.sp := rfl
@[simp] theorem setDt_dt (v : Byte) : (s.setDt v).dt = v := rfl
@[simp] theorem setDt_st (v : Byte) : (s.setDt v).st = s.st := rfl
@[simp] theorem setDt_keys (v : Byte) : (s.setDt v).keys = s.keys := rfl
@[simp] theorem setDt_disp (v : Byte) : (s.setDt v).disp = s.disp := rfl
@[simp] theorem setDt_mem (v : Byte) : (s.setDt v).mem = s.mem := rfl
@[simp] theorem setDt_fault (v : Byte) : (s.setDt v).fault = s.fault := rfl
@[simp] theorem setDt_waiting (v : Byte) : (s.setDt v).waiting = s.waiting := rfl
@[simp] theorem setDt_rnd (v : Byte) : (s.setDt v).rnd = s.rnd := rfl
@[simp] theorem setDt_draws (v : Byte) : (s.setDt v).draws = s.draws := rfl
@[simp] theorem setDt_inbox (v : Byte) : (s.setDt v).inbox = s.inbox := rfl
@[simp] theorem setDt_params (v : Byte) : (s.setDt v).params = s.params := rfl
@[simp] theorem setDt_idle (v : Byte) : (s.setDt v).idle = s.idle := rfl

@[simp] theorem setSt_V (v : Byte) : (s.setSt v).V = s.V := rfl
@[simp] theorem setSt_pc (v : Byte) : (s.setSt v).pc = s.pc := rfl
@[simp] theorem setSt_I (v : Byte) : (s.setSt v).I = s.I := rfl
@[simp] theorem setSt_stack (v : Byte) : (s.setSt v).stack = s.stack := rfl
@[simp] theorem setSt_sp (v : Byte) : (s.setSt v).sp = s.sp := rfl
@[simp] theorem setSt_dt (v : Byte) : (s.setSt v).dt = s.dt := rfl
@[simp] theorem setSt_st (v : Byte) : (s.setSt v).st = v := rfl
@[simp] theorem setSt_keys (v : Byte) : (s.setSt v).keys = s.keys := rfl
@[simp] theorem setSt_disp (v : Byte) : (s.setSt v).disp = s.disp := rfl
@[simp] theorem setSt_mem (v : Byte) : (s.setSt v).mem = s.mem := rfl
@[simp] theorem setSt_fault (v : Byte) : (s.setSt v).fault = s.fault := rfl
@[simp] theorem setSt_waiting (v : Byte) : (s.setSt v).waiting = s.waiting := rfl
@[simp] theorem setSt_rnd (v : Byte) : (s.setSt v).rnd = s.rnd := rfl
@[simp] theorem setSt_draws (v : Byte) : (s.setSt v).draws = s.draws := rfl
@[simp] theorem setSt_inbox (v : Byte) : (s.setSt v).inbox = s.inbox := rfl
@[simp] theorem setSt_params (v : Byte) : (s.setSt v).params = s.params := rfl
@[simp] theorem setSt_idle (v : Byte) : (s.setSt v).idle = s.idle := rfl

@[simp] theorem setDisp_V (d : Display) : (s.setDisp d).V = s.V := rfl
@[simp] theorem setDisp_pc (d : Display) : (s.setDisp d).pc = s.pc := rfl
@[simp] theorem setDisp_I (d : Display) : (s.setDisp d).I = s.I := rfl
@[simp] theorem setDisp_stack (d : Display) : (s.setDisp d).stack = s.stack := rfl
@[simp] theorem setDisp_sp (d : Display) : (s.setDisp d).sp = s.sp := rfl
@[simp] theorem setDisp_dt (d : Display) : (s.setDisp d).dt = s.dt := rfl
@[simp] theorem setDisp_st (d : Display) : (s.setDisp d).st = s.st := rfl
@[simp] theorem setDisp_keys (d : Display) : (s.setDisp d).keys = s.keys := rfl
@[simp] theorem setDisp_disp (d : Display) : (s.setDisp d).disp = d := rfl
@[simp] theorem setDisp_mem (d : Display) : (s.setDisp d).mem = s.mem := rfl
@[simp] theorem setDisp_fault (d : Display) : (s.setDisp d).fault = s.fault := rfl
@[simp] theorem setDisp_waiting (d : Display) : (s.setDisp d).waiting = s.waiting := rfl
@[simp] theorem setDisp_rnd (d : Display) : (s.setDisp d).rnd = s.rnd := rfl
@[simp] theorem setDisp_draws (d : Display) : (s.setDisp d).draws = s.draws := rfl
@[simp] theorem setDisp_inbox (d : Display) : (s.setDisp d).inbox = s.inbox := rfl
@[simp] theorem setDisp_params (d : Display) : (s.setDisp d).params = s.params := rfl
@[simp] theorem setDisp_idle (d : Display) : (s.setDisp d).idle = s.idle := rfl

@[simp] theorem setKey_V (k : Key) (v : Bool) : (s.setKey k v).V = s.V := rfl
@[simp] theorem setKey_pc (k : Key) (v : Bool) : (s.setKey k v).pc = s.pc := rfl
@[simp] theorem setKey_I (k : Key) (v : Bool) : (s.setKey k v).I = s.I := rfl
@[simp] theorem setKey_stack (k : Key) (v : Bool) : (s.setKey k v).stack = s.stack := rfl
@[simp] theorem setKey_sp (k : Key) (v : Bool) : (s.setKey k v).sp = s.sp := rfl
@[simp] theorem setKey_dt (k : Key) (v : Bool) : (s.setKey k v).dt = s.dt := rfl
@[simp] theorem setKey_st (k : Key) (v : Bool) : (s.setKey k v).st = s.st := rfl
@[simp] theorem setKey_keys (k : Key) (v : Bool) : (s.setKey k v).keys = s.keys.set k.val v := rfl
@[simp] theorem setKey_disp (k : Key) (v : Bool) : (s.setKey k v).disp = s.disp := rfl
@[simp] theorem setKey_mem (k : Key) (v : Bool) : (s.setKey k v).mem = s.mem := rfl
@[simp] theorem setKey_fault (k : Key) (v : Bool) : (s.setKey k v).fault = s.fault := rfl
@[simp] theorem setKey_waiting (k : Key) (v : Bool) : (s.setKey k v).waiting = s.waiting := rfl
@[simp] theorem setKey_rnd (k : Key) (v : Bool) : (s.setKey k v).rnd = s.rnd := rfl
@[simp] theorem setKey_draws (k : Key) (v : Bool) : (s.setKey k v).draws = s.draws := rfl
@[simp] theorem setKey_inbox (k : Key) (v : Bool) : (s.setKey k v).inbox = s.inbox := rfl
@[simp] theorem setKey_params (k : Key) (v : Bool) : (s.setKey k v).params = s.params := rfl
@[simp] theorem setKey_idle (k : Key) (v : Bool) : (s.setKey k v).idle = s.idle := rfl

@[simp] theorem storeBytes_V (a : Nat) (bytes : List Byte) : (s.storeBytes a bytes).V = s.V := rfl
@[simp] theorem storeBytes_pc (a : Nat) (bytes : List Byte) : (s.storeBytes a bytes).pc = s.pc := rfl
@[simp] theorem storeBytes_I (a : Nat) (bytes : List Byte) : (s.storeBytes a bytes).I = s.I := rfl
@[simp] theorem storeBytes_stack (a : Nat) (bytes : List Byte) : (s.storeBytes a bytes).stack = s.stack := rfl
@[simp] theorem storeBytes_sp (a : Nat) (bytes : List Byte) : (s.storeBytes a bytes).sp = s.sp := rfl
@[simp] theorem storeBytes_dt (a : Nat) (bytes : List Byte) : (s.storeBytes a bytes).dt = s.dt := rfl
@[simp] theorem storeBytes_st (a : Nat) (bytes : List Byte) : (s.storeBytes a bytes).st = s.st := rfl
@[simp] theorem storeBytes_keys (a : Nat) (bytes : List Byte) : (s.storeBytes a bytes).keys = s.keys := rfl
@[simp] theorem storeBytes_disp (a : Nat) (bytes : List Byte) : (s.storeBytes a bytes).disp = s.disp := rfl
@[simp] theorem storeBytes_mem (a : Nat) (bytes : List Byte) : (s.storeBytes a bytes).mem = s.mem.writeRange s.params.font a bytes := rfl
@[simp] theorem storeBytes_fault (a : Nat) (bytes : List Byte) : (s.storeBytes a bytes).fault = s.fault := rfl
@[simp] theorem storeBytes_waiting (a : Nat) (bytes : List Byte) : (s.storeBytes a bytes).waiting = s.waiting := rfl
@[simp] theorem storeBytes_rnd (a : Nat) (bytes : List Byte) : (s.storeBytes a bytes).rnd = s.rnd := rfl
@[simp] theorem storeBytes_draws (a : Nat) (bytes : List Byte) : (s.storeBytes a bytes).draws = s.draws := rfl
@[simp] theorem storeBytes_inbox (a : Nat) (bytes : List Byte) : (s.storeBytes a bytes).inbox = s.inbox := rfl
@[simp] theorem storeBytes_params (a : Nat) (bytes : List Byte) : (s.storeBytes a bytes).params = s.params := rfl
@[simp] theorem storeBytes_idle (a : Nat) (bytes : List Byte) : (s.storeBytes a bytes).idle = s.idle := rfl

@[simp] theorem raise_V (c : FaultCode) : (s.raise c).V = s.V := rfl
@[simp] theorem raise_pc (c : FaultCode) : (s.raise c).pc = s.pc := rfl
@[simp] theorem raise_I (c : FaultCode) : (s.raise c).I = s.I := rfl
@[simp] theorem raise_stack (c : FaultCode) : (s.raise c).stack = s.stack := rfl
@[simp] theorem raise_sp (c : FaultCode) : (s.raise c).sp = s.sp := rfl
@[simp] theorem raise_dt (c : FaultCode) : (s.raise c).dt = s.dt := rfl
@[simp] theorem raise_st (c : FaultCode) : (s.raise c).st = s.st := rfl
@[simp] theorem raise_keys (c : FaultCode) : (s.raise c).keys = s.keys := rfl
@[simp] theorem raise_disp (c : FaultCode) : (s.raise c).disp = s.disp := rfl
@[simp] theorem raise_mem (c : FaultCode) : (s.raise c).mem = s.mem := rfl
@[simp] theorem raise_fault (c : FaultCode) : (s.raise c).fault = c := rfl
@[simp] theorem raise_waiting (c : FaultCode) : (s.raise c).waiting = s.waiting := rfl
@[simp] theorem raise_rnd (c : FaultCode) : (s.raise c).rnd = s.rnd := rfl
@[simp] theorem raise_draws (c : FaultCode) : (s.raise c).draws = s.draws := rfl
@[simp] theorem raise_inbox (c : FaultCode) : (s.raise c).inbox = s.inbox := rfl
@[simp] theorem raise_params (c : FaultCode) : (s.raise c).params = s.params := rfl
@[simp] theorem raise_idle (c : FaultCode) : (s.raise c).idle = s.idle := rfl

@[simp] theorem hold_V : s.hold.V = s.V := rfl
@[simp] theorem hold_pc : s.hold.pc = s.pc := rfl
@[simp] theorem hold_I : s.hold.I = s.I := rfl
@[simp] theorem hold_stack : s.hold.stack = s.stack := rfl
@[simp] theorem hold_sp : s.hold.sp = s.sp := rfl
@[simp] theorem hold_dt : s.hold.dt = s.dt := rfl
@[simp] theorem hold_st : s.hold.st = s.st := rfl
@[simp] theorem hold_keys : s.hold.keys = s.keys := rfl
@[simp] theorem hold_disp : s.hold.disp = s.disp := rfl
@[simp] theorem hold_mem : s.hold.mem = s.mem := rfl
@[simp] theorem hold_fault : s.hold.fault = s.fault := rfl
@[simp] theorem hold_waiting : s.hold.waiting = true := rfl
@[simp] theorem hold_rnd : s.hold.rnd = s.rnd := rfl
@[simp] theorem hold_draws : s.hold.draws = s.draws := rfl
@[simp] theorem hold_inbox : s.hold.inbox = s.inbox := rfl
@[simp] theorem hold_params : s.hold.params = s.params := rfl
@[simp] theorem hold_idle : s.hold.idle = s.idle := rfl

@[simp] theorem advance_V : s.advance.V = s.V := rfl
@[simp] theorem advance_pc : s.advance.pc = s.pc + 2 := rfl
@[simp] theorem advance_I : s.advance.I = s.I := rfl
@[simp] theorem advance_stack : s.advance.stack = s.stack := rfl
@[simp] theorem advance_sp : s.advance.sp = s.sp := rfl
@[simp] theorem advance_dt : s.advance.dt = s.dt := rfl
@[simp] theorem advance_st : s.advance.st = s.st := rfl
@[simp] theorem advance_keys : s.advance.keys = s.keys := rfl
@[simp] theorem advance_disp : s.advance.disp = s.disp := rfl
@[simp] theorem advance_mem : s.advance.mem = s.mem := rfl
@[simp] theorem advance_fault : s.advance.fault = s.fault := rfl
@[simp] theorem advance_waiting : s.advance.waiting = false := rfl
@[simp] theorem advance_rnd : s.advance.rnd = s.rnd := rfl
@[simp] theorem advance_draws : s.advance.draws = s.draws := rfl
@[simp] theorem advance_inbox : s.advance.inbox = s.inbox := rfl
@[simp] theorem advance_params : s.advance.params = s.params := rfl
@[simp] theorem advance_idle : s.advance.idle = s.idle := rfl

@[simp] theorem skipIf_V (c : Bool) : (s.skipIf c).V = s.V := by cases c <;> rfl
@[simp] theorem skipIf_pc (c : Bool) : (s.skipIf c).pc = if c then s.pc + 2 else s.pc := by cases c <;> rfl
@[simp] theorem skipIf_I (c : Bool) : (s.skipIf c).I = s.I := by cases c <;> rfl
@[simp] theorem skipIf_stack (c : Bool) : (s.skipIf c).stack = s.stack := by cases c <;> rfl
@[simp] theorem skipIf_sp (c : Bool) : (s.skipIf c).sp = s.sp := by cases c <;> rfl
@[simp] theorem skipIf_dt (c : Bool) : (s.skipIf c).dt = s.dt := by cases c <;> rfl
@[simp] theorem skipIf_st (c : Bool) : (s.skipIf c).st = s.st := by cases c <;> rfl
@[simp] theorem skipIf_keys (c : Bool) : (s.skipIf c).keys = s.keys := by cases c <;> rfl
@[simp] theorem skipIf_disp (c : Bool) : (s.skipIf c).disp = s.disp := by cases c <;> rfl
@[simp] theorem skipIf_mem (c : Bool) : (s.skipIf c).mem = s.mem := by cases c <;> rfl
@[simp] theorem skipIf_fault (c : Bool) : (s.skipIf c).fault = s.fault := by cases c <;> rfl
@[simp] theorem skipIf_waiting (c : Bool) : (s.skipIf c).waiting = s.waiting := by cases c <;> rfl
@[simp] theorem skipIf_rnd (c : Bool) : (s.skipIf c).rnd = s.rnd := by cases c <;> rfl
@[simp] theorem skipIf_draws (c : Bool) : (s.skipIf c).draws = s.draws := by cases c <;> rfl
@[simp] theorem skipIf_inbox (c : Bool) : (s.skipIf c).inbox = s.inbox := by cases c <;> rfl
@[simp] theorem skipIf_params (c : Bool) : (s.skipIf c).params = s.params := by cases c <;> rfl
@[simp] theorem skipIf_idle (c : Bool) : (s.skipIf c).idle = s.idle := by cases c <;> rfl

@[simp] theorem setResultThenFlag_pc (x : Reg) (r : Byte) (b : Bool) : (s.setResultThenFlag x r b).pc = s.pc := rfl
@[simp] theorem setResultThenFlag_I (x : Reg) (r : Byte) (b : Bool) : (s.setResultThenFlag x r b).I = s.I := rfl
@[simp] theorem setResultThenFlag_stack (x : Reg) (r : Byte) (b : Bool) : (s.setResultThenFlag x r b).stack = s.stack := rfl
@[simp] theorem setResultThenFlag_sp (x : Reg) (r : Byte) (b : Bool) : (s.setResultThenFlag x r b).sp = s.sp := rfl
@[simp] theorem setResultThenFlag_dt (x : Reg) (r : Byte) (b : Bool) : (s.setResultThenFlag x r b).dt = s.dt := rfl
@[simp] theorem setResultThenFlag_st (x : Reg) (r : Byte) (b : Bool) : (s.setResultThenFlag x r b).st = s.st := rfl
@[simp] theorem setResultThenFlag_keys (x : Reg) (r : Byte) (b : Bool) : (s.setResultThenFlag x r b).keys = s.keys := rfl
@[simp] theorem setResultThenFlag_disp (x : Reg) (r : Byte) (b : Bool) : (s.setResultThenFlag x r b).disp = s.disp := rfl
@[simp] theorem setResultThenFlag_mem (x : Reg) (r : Byte) (b : Bool) : (s.setResultThenFlag x r b).mem = s.mem := rfl
@[simp] theorem setResultThenFlag_fault (x : Reg) (r : Byte) (b : Bool) : (s.setResultThenFlag x r b).fault = s.fault := rfl
@[simp] theorem setResultThenFlag_waiting (x : Reg) (r : Byte) (b : Bool) : (s.setResultThenFlag x r b).waiting = s.waiting := rfl
@[simp] theorem setResultThenFlag_rnd (x : Reg) (r : Byte) (b : Bool) : (s.setResultThenFlag x r b).rnd = s.rnd := rfl
@[simp] theorem setResultThenFlag_draws (x : Reg) (r : Byte) (b : Bool) : (s.setResultThenFlag x r b).draws = s.draws := rfl
@[simp] theorem setResultThenFlag_inbox (x : Reg) (r : Byte) (b : Bool) : (s.setResultThenFlag x r b).inbox = s.inbox := rfl
@[simp] theorem setResultThenFlag_params (x : Reg) (r : Byte) (b : Bool) : (s.setResultThenFlag x r b).params = s.params := rfl
@[simp] theorem setResultThenFlag_idle (x : Reg) (r : Byte) (b : Bool) : (s.setResultThenFlag x r b).idle = s.idle := rfl

@[simp] theorem setFlagThenResult_pc (x : Reg) (r : Byte) (b : Bool) : (s.setFlagThenResult x r b).pc = s.pc := rfl
@[simp] theorem setFlagThenResult_I (x : Reg) (r : Byte) (b : Bool) : (s.setFlagThenResult x r b).I = s.I := rfl
@[simp] theorem setFlagThenResult_stack (x : Reg) (r : Byte) (b : Bool) : (s.setFlagThenResult x r b).stack = s.stack := rfl
@[simp] theorem setFlagThenResult_sp (x : Reg) (r : Byte) (b : Bool) : (s.setFlagThenResult x r b).sp = s.sp := rfl
@[simp] theorem setFlagThenResult_dt (x : Reg) (r : Byte) (b : Bool) : (s.setFlagThenResult x r b).dt = s.dt := rfl
@[simp] theorem setFlagThenResult_st (x : Reg) (r : Byte) (b : Bool) : (s.setFlagThenResult x r b).st = s.st := rfl
@[simp] theorem setFlagThenResult_keys (x : Reg) (r : Byte) (b : Bool) : (s.setFlagThenResult x r b).keys = s.keys := rfl
@[simp] theorem setFlagThenResult_disp (x : Reg) (r : Byte) (b : Bool) : (s.setFlagThenResult x r b).disp = s.disp := rfl
@[simp] theorem setFlagThenResult_mem (x : Reg) (r : Byte) (b : Bool) : (s.setFlagThenResult x r b).mem = s.mem := rfl
@[simp] theorem setFlagThenResult_fault (x : Reg) (r : Byte) (b : Bool) : (s.setFlagThenResult x r b).fault = s.fault := rfl
@[simp] theorem setFlagThenResult_waiting (x : Reg) (r : Byte) (b : Bool) : (s.setFlagThenResult x r b).waiting = s.waiting := rfl
@[simp] theorem setFlagThenResult_rnd (x : Reg) (r : Byte) (b : Bool) : (s.setFlagThenResult x r b).rnd = s.rnd := rfl
@[simp] theorem setFlagThenResult_draws (x : Reg) (r : Byte) (b : Bool) : (s.setFlagThenResult x r b).draws = s.draws := rfl
@[simp] theorem setFlagThenResult_inbox (x : Reg) (r : Byte) (b : Bool) : (s.setFlagThenResult x r b).inbox = s.inbox := rfl
@[simp] theorem setFlagThenResult_params (x : Reg) (r : Byte) (b : Bool) : (s.setFlagThenResult x r b).params = s.params := rfl
@[simp] theorem setFlagThenResult_idle (x : Reg) (r : Byte) (b : Bool) : (s.setFlagThenResult x r b).idle = s.idle := rfl

/-- A skip from the advanced state ends 4 or 2 beyond the instruction (R58). -/
theorem skipIf_advance_pc (c : Bool) : (s.advance.skipIf c).pc = if c then s.pc + 4 else s.pc + 2 := by
  rw [skipIf_pc, advance_pc, BitVec.add_assoc]
  rfl

end Sys2Proof.Machine.State

namespace Sys2Proof.Machine

/-- A flag as a number. -/
@[simp] theorem toNat_flagByte (b : Bool) : (flagByte b).toNat = b.toNat := by cases b <;> rfl

/-- The bit shifted out on the right, as a number (R85, R89). -/
theorem toNat_shiftedOutRight (a : Byte) : (shiftedOutRight a).toNat = a.toNat % 2 := by
  simp only [shiftedOutRight, BitVec.getLsbD, Nat.testBit_zero]
  rcases Nat.mod_two_eq_zero_or_one a.toNat with h | h <;> simp [h]

/-- The bit shifted out on the left, as a number (R87, R89). -/
theorem toNat_shiftedOutLeft (a : Byte) : (shiftedOutLeft a).toNat = a.toNat / 128 := by
  have h := a.isLt
  simp only [shiftedOutLeft, BitVec.getLsbD, Nat.testBit_eq_decide_div_mod_eq]
  by_cases hb : 128 ≤ a.toNat
  · have : a.toNat / 2 ^ 7 % 2 = 1 := by omega
    simp only [this, decide_true, Bool.toNat_true]
    omega
  · have : a.toNat / 2 ^ 7 % 2 = 0 := by omega
    simp only [this]
    simp
    omega

end Sys2Proof.Machine
end

