-- ==== Sys2Proof/Laws/Registers.lean ====
section
/-! SUPPORT. Reading a register, a key or a display cell after a write. -/

namespace Sys2Proof.Machine

/-- `writeRegsFrom` replaces as many registers, from `i` on, as there are bytes and leaves the others. -/
theorem getElem_writeRegsFrom (V : Vector Byte 16) (i : Nat) (bytes : List Byte) (j : Nat) (hj : j < 16) :
    (writeRegsFrom V i bytes)[j] = if i ≤ j then (bytes[j - i]?).getD V[j] else V[j] := by
  induction bytes generalizing V i with
  | nil => simp [writeRegsFrom]
  | cons v bytes ih =>
    rw [writeRegsFrom, ih]
    rcases Nat.lt_trichotomy i j with h | h | h
    · rw [if_pos (show i + 1 ≤ j from h), if_pos (Nat.le_of_lt h), show j - i = (j - (i + 1)) + 1 by omega, List.getElem?_cons_succ,
        Vector.getElem_setIfInBounds_ne hj (Nat.ne_of_lt h)]
    · subst h
      simp
    · rw [if_neg (by omega), if_neg (by omega), Vector.getElem_setIfInBounds_ne hj (Nat.ne_of_gt h)]

namespace State

/-- A register reads as written; the others are unchanged. -/
@[simp] theorem getV_setV (s : State) (i j : Reg) (v : Byte) :
    (s.setV i v).getV j = if j = i then v else s.getV j := by
  simp only [getV, setV_V, Vector.getElem_set]
  by_cases h : i = j
  · simp [h]
  · simp [h, Ne.symm h, Fin.val_inj]

/-- `setVs` replaces the registers below the number of bytes and leaves the others. -/
theorem getV_setVs (s : State) (bytes : List Byte) (j : Reg) :
    (s.setVs bytes).getV j = (bytes[j.val]?).getD (s.getV j) := by
  simp [getV, setVs, getElem_writeRegsFrom]

/-- Only the registers are read by `getV`. -/
theorem getV_congr {s t : State} (h : t.V = s.V) (i : Reg) : t.getV i = s.getV i := by
  simp [getV, h]

@[simp] theorem getV_advance (s : State) (i : Reg) : s.advance.getV i = s.getV i := rfl
@[simp] theorem getV_raise (s : State) (c : FaultCode) (i : Reg) : (s.raise c).getV i = s.getV i := rfl
@[simp] theorem getV_setPc (s : State) (v : Word) (i : Reg) : (s.setPc v).getV i = s.getV i := rfl
@[simp] theorem getV_setI (s : State) (v : Word) (i : Reg) : (s.setI v).getV i = s.getV i := rfl
@[simp] theorem getV_setDt (s : State) (v : Byte) (i : Reg) : (s.setDt v).getV i = s.getV i := rfl
@[simp] theorem getV_setSt (s : State) (v : Byte) (i : Reg) : (s.setSt v).getV i = s.getV i := rfl
@[simp] theorem getV_setDisp (s : State) (d : Display) (i : Reg) : (s.setDisp d).getV i = s.getV i := rfl
@[simp] theorem getV_setKey (s : State) (k : Key) (v : Bool) (i : Reg) : (s.setKey k v).getV i = s.getV i := rfl
@[simp] theorem getV_storeBytes (s : State) (a : Nat) (bytes : List Byte) (i : Reg) :
    (s.storeBytes a bytes).getV i = s.getV i := rfl
@[simp] theorem getV_hold (s : State) (i : Reg) : s.hold.getV i = s.getV i := rfl
@[simp] theorem getV_skipIf (s : State) (c : Bool) (i : Reg) : (s.skipIf c).getV i = s.getV i := by
  cases c <;> rfl

/-- `8XY4`, `8XY5`, `8XY7`: `V[15]` ends as the flag even when `X = 15` (R76). -/
@[simp] theorem getV_setResultThenFlag (s : State) (x j : Reg) (r : Byte) (f : Bool) :
    (s.setResultThenFlag x r f).getV j = if j = VF then flagByte f else if j = x then r else s.getV j := by
  simp [setResultThenFlag]

/-- `8XY6`, `8XYE`: `V[15]` ends as the result when `X = 15` (R76). -/
@[simp] theorem getV_setFlagThenResult (s : State) (x j : Reg) (r : Byte) (f : Bool) :
    (s.setFlagThenResult x r f).getV j = if j = x then r else if j = VF then flagByte f else s.getV j := by
  simp [setFlagThenResult]

/-! A byte of memory after an update that does not write memory. -/

@[simp] theorem byteAt_advance (s : State) (a : Nat) : s.advance.byteAt a = s.byteAt a := rfl
@[simp] theorem byteAt_raise (s : State) (c : FaultCode) (a : Nat) :
    (s.raise c).byteAt a = s.byteAt a := rfl
@[simp] theorem byteAt_setPc (s : State) (v : Word) (a : Nat) :
    (s.setPc v).byteAt a = s.byteAt a := rfl
@[simp] theorem byteAt_setI (s : State) (v : Word) (a : Nat) :
    (s.setI v).byteAt a = s.byteAt a := rfl
@[simp] theorem byteAt_setDt (s : State) (v : Byte) (a : Nat) :
    (s.setDt v).byteAt a = s.byteAt a := rfl
@[simp] theorem byteAt_setSt (s : State) (v : Byte) (a : Nat) :
    (s.setSt v).byteAt a = s.byteAt a := rfl
@[simp] theorem byteAt_setDisp (s : State) (d : Display) (a : Nat) :
    (s.setDisp d).byteAt a = s.byteAt a := rfl
@[simp] theorem byteAt_setKey (s : State) (k : Key) (v : Bool) (a : Nat) :
    (s.setKey k v).byteAt a = s.byteAt a := rfl
@[simp] theorem byteAt_setV (s : State) (i : Reg) (v : Byte) (a : Nat) :
    (s.setV i v).byteAt a = s.byteAt a := rfl
@[simp] theorem byteAt_setVs (s : State) (bytes : List Byte) (a : Nat) :
    (s.setVs bytes).byteAt a = s.byteAt a := rfl
@[simp] theorem byteAt_hold (s : State) (a : Nat) : s.hold.byteAt a = s.byteAt a := rfl
@[simp] theorem byteAt_setResultThenFlag (s : State) (x : Reg) (r : Byte) (f : Bool) (a : Nat) :
    (s.setResultThenFlag x r f).byteAt a = s.byteAt a := rfl
@[simp] theorem byteAt_setFlagThenResult (s : State) (x : Reg) (r : Byte) (f : Bool) (a : Nat) :
    (s.setFlagThenResult x r f).byteAt a = s.byteAt a := rfl
@[simp] theorem byteAt_skipIf (s : State) (c : Bool) (a : Nat) : (s.skipIf c).byteAt a = s.byteAt a := by
  cases c <;> rfl

/-- A key has the level it was set to; the others are unchanged. -/
theorem keys_setKey (s : State) (k j : Key) (v : Bool) :
    (s.setKey k v).keys[j.val] = if j = k then v else s.keys[j.val] := by
  simp only [setKey_keys, Vector.getElem_set]
  by_cases h : k = j
  · simp [h]
  · simp [h, Ne.symm h, Fin.val_inj]

end State

/-- Inverting a cell changes that cell and no other (R99). -/
theorem Display.on_invert (d : Display) (x x' : Fin 64) (y y' : Fin 32) :
    (d.invert x y).on x' y' = if x' = x ∧ y' = y then !d.on x y else d.on x' y' := by
  unfold Display.invert Display.on
  rw [Vector.getElem_set]
  by_cases hy : y.val = y'.val
  · have hy' : y' = y := Fin.ext hy.symm
    subst hy'
    rw [if_pos rfl, Vector.getElem_set]
    by_cases hx : x.val = x'.val
    · have hx' : x' = x := Fin.ext hx.symm
      subst hx'
      simp
    · rw [if_neg hx, if_neg (fun h => hx (Fin.val_eq_of_eq h.1.symm))]
  · rw [if_neg hy, if_neg (fun h => hy (Fin.val_eq_of_eq h.2.symm))]

/-- Two displays with the same cells are equal. -/
theorem Display.ext_on {d e : Display} (h : ∀ x y, d.on x y = e.on x y) : d = e := by
  apply Vector.ext
  intro y hy
  apply Vector.ext
  intro x hx
  exact h ⟨x, hx⟩ ⟨y, hy⟩

/-- A value above 15 matches no key (R75). -/
theorem keyDown_eq_false (s : State) {v : Byte} (h : 16 ≤ v.toNat) : keyDown s v = false := by
  unfold keyDown
  rw [dif_neg (by omega)]

/-- A value up to 15 reads the level of its key (R75). -/
theorem keyDown_eq (s : State) {v : Byte} (h : v.toNat < 16) : keyDown s v = s.keys[v.toNat] := by
  unfold keyDown
  rw [dif_pos h]

/-- No key is reported iff none is pressed (R104). -/
theorem lowestKey_eq_none (s : State) : lowestKey s = none ↔ ∀ k : Key, s.keys[k.val] = false := by
  simp [lowestKey, List.find?_eq_none]

/-- The key reported is pressed and every smaller one is not (R104). -/
theorem lowestKey_eq_some (s : State) (k : Key) :
    lowestKey s = some k ↔ s.keys[k.val] = true ∧ ∀ j : Key, j < k → s.keys[j.val] = false := by
  unfold lowestKey
  constructor
  · intro h
    rw [List.find?_eq_some_iff_getElem] at h
    obtain ⟨hk, i, hi, hik, hlt⟩ := h
    refine ⟨hk, fun j hj => ?_⟩
    have hik' : i = k.val := by rw [← hik]; simp
    have := hlt j.val (by rw [hik']; exact hj)
    simpa using this
  · intro ⟨hk, hlt⟩
    rw [List.find?_eq_some_iff_getElem]
    refine ⟨hk, k.val, by simp, by simp, fun j hj => ?_⟩
    have := hlt ⟨j, by omega⟩ hj
    simpa using this

end Sys2Proof.Machine
end

