-- ==== Sys2Proof/Laws/Draw.lean ====
section
/-! SUPPORT. What one pixel of a sprite does to a cell and to the collision flag (R99), and the two kinds of edge. -/

namespace Sys2Proof.Machine

/-- Clipped: a pixel on the display falls on its own cell (R99). -/
theorem spriteCell_clip_eq_some (x y : Nat) (i : Fin 64) (j : Fin 32) :
    spriteCell .clip x y = some (i, j) ↔ x = i.val ∧ y = j.val := by
  have hi := i.isLt
  have hj := j.isLt
  simp only [spriteCell]
  by_cases h : x < 64 ∧ y < 32
  · rw [dif_pos h]
    simp [Prod.ext_iff, Fin.ext_iff]
  · rw [dif_neg h]
    simp
    omega

/-- Wrapped: a pixel falls on the cell of its coordinates modulo the display (R99). -/
theorem spriteCell_wrap_eq_some (x y : Nat) (i : Fin 64) (j : Fin 32) :
    spriteCell .wrap x y = some (i, j) ↔ x % 64 = i.val ∧ y % 32 = j.val := by
  simp [spriteCell, Prod.ext_iff, Fin.ext_iff]

/-- A set pixel inverts the cell it falls on and no other (R99). -/
theorem on_drawPixel (edge : Config.SpriteEdge) (x y : Nat) (c : Canvas) (i : Fin 64) (j : Fin 32) :
    (drawPixel edge x y c).disp.on i j =
      if spriteCell edge x y = some (i, j) then !c.disp.on i j else c.disp.on i j := by
  unfold drawPixel
  cases h : spriteCell edge x y with
  | none => simp
  | some p =>
    obtain ⟨a, b⟩ := p
    simp only [Display.on_invert]
    by_cases hab : i = a ∧ j = b
    · obtain ⟨rfl, rfl⟩ := hab
      simp
    · rw [if_neg hab, if_neg]
      rintro heq
      simp only [Option.some.injEq, Prod.mk.injEq] at heq
      exact hab ⟨heq.1.symm, heq.2.symm⟩

/-- A set pixel collides iff the cell it falls on is on (R99). -/
theorem hit_drawPixel (edge : Config.SpriteEdge) (x y : Nat) (c : Canvas) :
    (drawPixel edge x y c).hit = true ↔
      c.hit = true ∨ ∃ i j, spriteCell edge x y = some (i, j) ∧ c.disp.on i j = true := by
  unfold drawPixel
  cases h : spriteCell edge x y with
  | none => simp
  | some p =>
    obtain ⟨a, b⟩ := p
    simp only [Bool.or_eq_true, Option.some.injEq, Prod.mk.injEq]
    constructor
    · rintro (hh | hh)
      · exact Or.inl hh
      · exact Or.inr ⟨a, b, ⟨rfl, rfl⟩, hh⟩
    · rintro (hh | ⟨i, j, ⟨rfl, rfl⟩, hh⟩)
      · exact Or.inl hh
      · exact Or.inr hh

end Sys2Proof.Machine
end

