-- ==== Sys2Proof/Laws/Memory.lean ====
section
/-! SUPPORT. What memory reads after a write, and that every memory operation keeps the canonical form. -/

namespace Sys2Proof.Machine

variable {f : Config.Font}

/-- An address no cell lists reads as after reset. -/
theorem Memory.read_of_not_listed {m : Memory} {a : Nat} (h : ∀ c ∈ m, c.1 ≠ a) : m.read f a = unlistedByte f a := by
  induction m with
  | nil => rfl
  | cons c m ih =>
    obtain ⟨b, w⟩ := c
    have hb : a ≠ b := fun e => h (b, w) (List.mem_cons_self ..) e.symm
    simp only [read, if_neg hb]
    exact ih (fun c hc => h c (List.mem_cons_of_mem _ hc))

/-- A canonical memory without its first cell is canonical. -/
theorem Memory.wf_tail {c : Host.Cell} {m : Memory} (h : Memory.wf (c :: m) f) : Memory.wf m f :=
  ⟨h.1.of_cons, fun d hd => h.2 d (List.mem_cons_of_mem _ hd)⟩

/-- Below the first listed address nothing is listed. -/
theorem Memory.read_below {b : Nat} {w : Byte} {m : Memory} (h : Memory.wf ((b, w) :: m) f) {a : Nat} (hab : a < b) :
    Memory.read ((b, w) :: m) f a = unlistedByte f a := by
  apply read_of_not_listed
  intro c hc
  rcases List.mem_cons.1 hc with rfl | hc
  · exact fun e => Nat.ne_of_lt hab e.symm
  · have := List.rel_of_pairwise_cons h.1 hc
    simp only at this
    omega

/-- READ AFTER WRITE: the byte written is read at its address, every other address reads as before. -/
theorem Memory.read_write {m : Memory} (h : m.wf f) (a : Nat) (v : Byte) (b : Nat) :
    (m.write f a v).read f b = if b = a then v else m.read f b := by
  induction m with
  | nil =>
    by_cases hv : v = unlistedByte f a
    · simp only [write, if_pos hv, read]
      by_cases hb : b = a <;> simp [hb, hv]
    · simp [write, if_neg hv, read]
  | cons c m ih =>
    obtain ⟨d, w⟩ := c
    by_cases had : a < d
    · by_cases hv : v = unlistedByte f a
      · simp only [write, if_pos had, if_pos hv]
        by_cases hb : b = a
        · rw [if_pos hb, hb, read_below h had, hv]
        · rw [if_neg hb]
      · simp only [write, if_pos had, if_neg hv]
        rw [read]
    · by_cases hade : a = d
      · subst hade
        by_cases hv : v = unlistedByte f a
        · simp only [write, if_neg had, if_pos hv, if_true]
          by_cases hb : b = a
          · subst hb
            rw [if_pos rfl, hv]
            apply read_of_not_listed
            intro c hc e
            have hlt : b < c.1 := List.rel_of_pairwise_cons h.1 hc
            omega
          · rw [if_neg hb, read, if_neg hb]
        · simp only [write, if_neg had, if_neg hv, if_true, read]
          by_cases hb : b = a <;> simp [hb]
      · simp only [write, if_neg had, if_neg hade, read]
        by_cases hbd : b = d
        · have hba : ¬ b = a := fun e => hade (e ▸ hbd)
          rw [if_pos hbd, if_neg hba, if_pos hbd]
        · rw [if_neg hbd, ih (wf_tail h), if_neg hbd]

/-- The cells after a write: those of before, and perhaps the written one. -/
theorem Memory.mem_write {m : Memory} {a : Nat} {v : Byte} {c : Host.Cell} (hc : c ∈ m.write f a v) :
    c ∈ m ∨ (c = (a, v) ∧ v ≠ unlistedByte f a) := by
  induction m with
  | nil =>
    by_cases hv : v = unlistedByte f a
    · simp [write, hv] at hc
    · rw [write, if_neg hv] at hc
      exact Or.inr ⟨List.mem_singleton.1 hc, hv⟩
  | cons d m ih =>
    obtain ⟨b, w⟩ := d
    simp only [write] at hc
    split at hc
    · split at hc
      · exact Or.inl hc
      · rcases List.mem_cons.1 hc with rfl | hc
        · exact Or.inr ⟨rfl, ‹_›⟩
        · exact Or.inl hc
    · split at hc
      · split at hc
        · exact Or.inl (List.mem_cons_of_mem _ hc)
        · rcases List.mem_cons.1 hc with rfl | hc
          · exact Or.inr ⟨rfl, ‹_›⟩
          · exact Or.inl (List.mem_cons_of_mem _ hc)
      · rcases List.mem_cons.1 hc with rfl | hc
        · exact Or.inl (List.mem_cons_self ..)
        · exact (ih hc).imp_left (List.mem_cons_of_mem _)

/-- A write inside memory keeps the canonical form. -/
theorem Memory.wf_write {m : Memory} (h : m.wf f) {a : Nat} (ha : a < 4096) (v : Byte) : (m.write f a v).wf f := by
  refine ⟨?_, fun c hc => ?_⟩
  · induction m with
    | nil =>
      by_cases hv : v = unlistedByte f a <;> simp [write, hv]
    | cons d m ih =>
      obtain ⟨b, w⟩ := d
      have hbm : ∀ c ∈ m, b < c.1 := fun c hc => List.rel_of_pairwise_cons h.1 hc
      simp only [write]
      split
      · split
        · exact h.1
        · refine List.Pairwise.cons (fun c hc => ?_) h.1
          rcases List.mem_cons.1 hc with rfl | hc
          · assumption
          · have := hbm c hc
            show a < c.1
            omega
      · split
        · rename_i hab
          subst hab
          split
          · exact h.1.of_cons
          · exact List.Pairwise.cons hbm h.1.of_cons
        · refine List.Pairwise.cons (fun c hc => ?_) (ih (wf_tail h))
          rcases mem_write hc with hc | ⟨rfl, -⟩
          · exact hbm c hc
          · show b < a
            omega
  · rcases mem_write hc with hc | ⟨rfl, hv⟩
    · exact h.2 c hc
    · exact ⟨ha, hv⟩

/-- A range of writes inside memory keeps the canonical form. -/
theorem Memory.wf_writeRange {m : Memory} (h : m.wf f) {a : Nat} {bytes : List Byte}
    (ha : bytes = [] ∨ a + bytes.length ≤ 4096) : (m.writeRange f a bytes).wf f := by
  induction bytes generalizing m a with
  | nil => exact h
  | cons v vs ih =>
    have hlen : a + (vs.length + 1) ≤ 4096 := by
      rcases ha with ha | ha
      · simp at ha
      · simpa using ha
    exact ih (wf_write h (by omega) v) (Or.inr (by omega))

/-- READ AFTER A RANGE OF WRITES: byte `k` of the range is read at `a + k`, every address outside as before. -/
theorem Memory.read_writeRange {m : Memory} (h : m.wf f) {a : Nat} {bytes : List Byte}
    (ha : bytes = [] ∨ a + bytes.length ≤ 4096) (b : Nat) :
    (m.writeRange f a bytes).read f b = if a ≤ b then (bytes[b - a]?).getD (m.read f b) else m.read f b := by
  induction bytes generalizing m a with
  | nil => simp [writeRange]
  | cons v vs ih =>
    have hlen : a + (vs.length + 1) ≤ 4096 := by
      rcases ha with ha | ha
      · simp at ha
      · simpa using ha
    rw [writeRange, ih (wf_write h (by omega) v) (Or.inr (by omega)), read_write h]
    by_cases hba : b = a
    · subst hba
      simp
    · rw [if_neg hba]
      by_cases hin : a + 1 ≤ b
      · have e : b - a = (b - (a + 1)) + 1 := by omega
        rw [if_pos hin, if_pos (by omega), e, List.getElem?_cons_succ]
      · rw [if_neg hin, if_neg (by omega)]

/-- Inside the range. -/
theorem Memory.read_writeRange_in {m : Memory} (h : m.wf f) {a : Nat} {bytes : List Byte}
    (ha : a + bytes.length ≤ 4096) {k : Nat} (hk : k < bytes.length) :
    (m.writeRange f a bytes).read f (a + k) = bytes[k] := by
  rw [read_writeRange h (Or.inr ha), if_pos (Nat.le_add_right a k), Nat.add_sub_cancel_left,
    List.getElem?_eq_getElem hk, Option.getD_some]

/-- Outside the range. -/
theorem Memory.read_writeRange_out {m : Memory} (h : m.wf f) {a : Nat} {bytes : List Byte}
    (ha : bytes = [] ∨ a + bytes.length ≤ 4096) {b : Nat} (hb : b < a ∨ a + bytes.length ≤ b) :
    (m.writeRange f a bytes).read f b = m.read f b := by
  rw [read_writeRange h ha]
  by_cases hab : a ≤ b
  · rw [if_pos hab, List.getElem?_eq_none (by omega), Option.getD_none]
  · rw [if_neg hab]

/-- The bytes read from `a` upward, one by one. -/
@[simp] theorem Memory.length_readRange (m : Memory) (f : Config.Font) (a n : Nat) : (m.readRange f a n).length = n := by
  simp [readRange]

/-- Byte `k` of a range read is the byte at `a + k`. -/
theorem Memory.getElem_readRange (m : Memory) (f : Config.Font) (a n k : Nat) (hk : k < (m.readRange f a n).length) :
    (m.readRange f a n)[k] = m.read f (a + k) := by
  simp [readRange]

/-- Memory after reset lists nothing and is canonical. -/
theorem Memory.wf_nil : Memory.wf [] f := ⟨List.Pairwise.nil, fun _ h => absurd h (List.not_mem_nil)⟩

/-- The memory after reset is canonical, with any parameters. -/
theorem resetWith_memWf (p : Config.Params) : (State.resetWith p).memWf := Memory.wf_nil

/-! The same of a whole state. -/

namespace State

/-- A store inside memory keeps the canonical form. -/
theorem memWf_storeBytes {s : State} (h : s.memWf) {a : Nat} {bytes : List Byte}
    (ha : bytes = [] ∨ a + bytes.length ≤ 4096) : (s.storeBytes a bytes).memWf := Memory.wf_writeRange h ha

/-- Inside the stored range. -/
theorem byteAt_storeBytes_in {s : State} (h : s.memWf) {a : Nat} {bytes : List Byte}
    (ha : a + bytes.length ≤ 4096) {k : Nat} (hk : k < bytes.length) :
    (s.storeBytes a bytes).byteAt (a + k) = bytes[k] := Memory.read_writeRange_in h ha hk

/-- Outside the stored range. -/
theorem byteAt_storeBytes_out {s : State} (h : s.memWf) {a : Nat} {bytes : List Byte}
    (ha : bytes = [] ∨ a + bytes.length ≤ 4096) {b : Nat} (hb : b < a ∨ a + bytes.length ≤ b) :
    (s.storeBytes a bytes).byteAt b = s.byteAt b := Memory.read_writeRange_out h ha hb

@[simp] theorem length_bytesAt (s : State) (a n : Nat) : (s.bytesAt a n).length = n := Memory.length_readRange ..

/-- Byte `k` of a range is the byte at `a + k`. -/
theorem getElem_bytesAt (s : State) (a n k : Nat) (hk : k < (s.bytesAt a n).length) :
    (s.bytesAt a n)[k] = s.byteAt (a + k) := Memory.getElem_readRange ..

/-- A byte of memory depends on memory and the font table alone. -/
theorem byteAt_congr {s t : State} (hm : t.mem = s.mem) (hp : t.params = s.params) (a : Nat) :
    t.byteAt a = s.byteAt a := by
  simp [byteAt, hm, hp]

end State

end Sys2Proof.Machine
end

