-- ==== Sys2Proof/Laws/Ops.lean ====
section
/-! SUPPORT. For each shared operation that may raise: everything it can do, said once. -/

namespace Sys2Proof.Machine

/-- The range check, as a bound (R45). -/
theorem rangeOk_iff (a n : Nat) : rangeOk a n = true ↔ n = 0 ∨ a + n ≤ 4096 := by
  simp only [rangeOk, decide_eq_true_eq]
  omega

/-- A data read answers the bytes of its range, or raises `OOB` when the range leaves memory (R33, R45). -/
theorem memRead_cases (s : State) (a n : Nat) :
    ((n = 0 ∨ a + n ≤ 4096) ∧ memRead s a n = .ok (s.bytesAt a n)) ∨
    (¬ (n = 0 ∨ a + n ≤ 4096) ∧ memRead s a n = .error .oob) := by
  unfold memRead
  by_cases h : n = 0 ∨ a + n ≤ 4096
  · exact Or.inl ⟨h, if_pos ((rangeOk_iff a n).2 h)⟩
  · exact Or.inr ⟨h, if_neg (fun e => h ((rangeOk_iff a n).1 e))⟩

/-- A data write stores its bytes and changes nothing else, or raises `OOB` when the range leaves memory
(R34, R45). -/
theorem memWrite_cases (s : State) (a : Nat) (bytes : List Byte) :
    ((bytes.length = 0 ∨ a + bytes.length ≤ 4096) ∧
      memWrite s a bytes = .ok (s.storeBytes a bytes)) ∨
    (¬ (bytes.length = 0 ∨ a + bytes.length ≤ 4096) ∧ memWrite s a bytes = .error .oob) := by
  unfold memWrite
  by_cases h : bytes.length = 0 ∨ a + bytes.length ≤ 4096
  · exact Or.inl ⟨h, if_pos ((rangeOk_iff a _).2 h)⟩
  · exact Or.inr ⟨h, if_neg (fun e => h ((rangeOk_iff a _).1 e))⟩

/-- Fetch answers the two bytes at `pc`, high byte first, or raises `OOB` (R35). -/
theorem fetch_cases (s : State) :
    (s.pc.toNat ≤ 4094 ∧ fetch s = .ok (opcodeOf (s.byteAt s.pc.toNat) (s.byteAt (s.pc.toNat + 1)))) ∨
    (4095 ≤ s.pc.toNat ∧ fetch s = .error .oob) := by
  unfold fetch
  by_cases h : s.pc.toNat + 1 ≤ 4095
  · exact Or.inl ⟨by omega, if_pos h⟩
  · exact Or.inr ⟨by omega, if_neg h⟩

/-- `Push` stores at the cursor and advances it, or raises `STACK` when the stack is full (R61). -/
theorem push_cases (s : State) (v : Word) :
    (∃ h : s.sp.val < 16, s.push v =
      .ok { s with stack := s.stack.set s.sp.val v, sp := ⟨s.sp.val + 1, Nat.succ_lt_succ h⟩ }) ∨
    (s.sp.val = 16 ∧ s.push v = .error .stack) := by
  unfold State.push
  by_cases h : s.sp.val < 16
  · exact Or.inl ⟨h, dif_pos h⟩
  · exact Or.inr ⟨by have := s.sp.isLt; omega, dif_neg h⟩

/-- `Pop` answers the entry below the cursor and retreats it, or raises `STACK` when the stack is empty (R62). -/
theorem pop_cases (s : State) :
    (∃ (_ : 0 < s.sp.val) (hlt : s.sp.val - 1 < 16), s.pop =
      .ok (s.stack[s.sp.val - 1], { s with sp := ⟨s.sp.val - 1, Nat.lt_succ_of_lt hlt⟩ })) ∨
    (s.sp.val = 0 ∧ s.pop = .error .stack) := by
  unfold State.pop
  by_cases h : 0 < s.sp.val
  · exact Or.inl ⟨h, by have := s.sp.isLt; omega, dif_pos h⟩
  · exact Or.inr ⟨by omega, dif_neg h⟩

@[simp] theorem commit_ok (s t : State) : commit s (.ok t) = .next t := rfl
@[simp] theorem commit_error (s : State) (c : FaultCode) : commit s (.error c) = .next (s.raise c) := rfl

/-- The number of registers `FX55` stores (R94). -/
@[simp] theorem length_regsUpTo (s : State) (x : Reg) : (regsUpTo s x).length = x.val + 1 := by
  simp [regsUpTo]

/-- Byte `k` of what `FX55` stores is `V[k]` (R94). -/
theorem getElem_regsUpTo (s : State) (x : Reg) (k : Nat) (hk : k < (regsUpTo s x).length) :
    (regsUpTo s x)[k] = s.getV ⟨k, by have := x.isLt; rw [length_regsUpTo] at hk; omega⟩ := by
  simp [regsUpTo, State.getV]

@[simp] theorem length_decimalDigits (v : Byte) : (decimalDigits v).length = 3 := rfl

/-- A 12-bit immediate as an address is the number it is (R49). -/
@[simp] theorem toNat_addrOf (nnn : BitVec 12) : (addrOf nnn).toNat = nnn.toNat := by
  have := nnn.isLt
  simp only [addrOf, BitVec.toNat_setWidth]
  omega

/-- The target of `BNNN` never wraps (R67). -/
theorem toNat_jumpV0Target (nnn : BitVec 12) (s : State) :
    (jumpV0Target nnn s).toNat = nnn.toNat + (s.getV 0).toNat := by
  have h1 := nnn.isLt
  have h2 := (s.getV 0).isLt
  simp only [jumpV0Target, zext16, BitVec.toNat_add, toNat_addrOf, BitVec.toNat_setWidth]
  omega

end Sys2Proof.Machine
end

