-- ==== Sys2Proof/Laws/Exec.lean ====
section
/-! SUPPORT. For each instruction with more than one outcome: all of them, said once. The others answer one next
state by definition. -/

namespace Sys2Proof.Machine

/-- `00EE`: the entry below the cursor is popped into `pc`, or `STACK` is taken (R64). -/
theorem exec_ret_cases (s : State) :
    (∃ (_ : 0 < s.sp.val) (hlt : s.sp.val - 1 < 16), exec .ret s =
      .next (State.setPc { s.advance with sp := ⟨s.sp.val - 1, Nat.lt_succ_of_lt hlt⟩ } s.stack[s.sp.val - 1])) ∨
    (s.sp.val = 0 ∧ exec .ret s = .next (s.raise .stack)) := by
  show (∃ (_ : 0 < s.sp.val) (hlt : s.sp.val - 1 < 16), execRet s = _) ∨ (_ ∧ execRet s = _)
  unfold execRet
  rcases pop_cases s.advance with ⟨h, hlt, e⟩ | ⟨h, e⟩
  · exact Or.inl ⟨h, hlt, by rw [e]; rfl⟩
  · exact Or.inr ⟨h, by rw [e]; rfl⟩

/-- `2NNN`: the advanced `pc` is pushed and `pc` is the target, or `STACK` is taken (R66). -/
theorem exec_call_cases (nnn : BitVec 12) (s : State) :
    (∃ h : s.sp.val < 16, exec (.call nnn) s =
      .next (State.setPc { s.advance with
        stack := s.stack.set s.sp.val (s.pc + 2), sp := ⟨s.sp.val + 1, Nat.succ_lt_succ h⟩ } (addrOf nnn))) ∨
    (s.sp.val = 16 ∧ exec (.call nnn) s = .next (s.raise .stack)) := by
  show (∃ h : s.sp.val < 16, execCall nnn s = _) ∨ (_ ∧ execCall nnn s = _)
  unfold execCall
  rcases push_cases s.advance s.advance.pc with ⟨h, e⟩ | ⟨h, e⟩
  · exact Or.inl ⟨h, by rw [e]; rfl⟩
  · exact Or.inr ⟨h, by rw [e]; rfl⟩

/-- `DXYN`: the sprite at `I` is drawn, or `OOB` is taken (R99). -/
theorem exec_drw_cases (x y : Reg) (n : BitVec 4) (s : State) :
    ((n.toNat = 0 ∨ indexAddr s + n.toNat ≤ 4096) ∧
      exec (.drw x y n) s = .next (drawnState s x y (s.bytesAt (indexAddr s) n.toNat))) ∨
    (¬ (n.toNat = 0 ∨ indexAddr s + n.toNat ≤ 4096) ∧ exec (.drw x y n) s = .next (s.raise .oob)) := by
  show (_ ∧ execDrw x y n s = _) ∨ (_ ∧ execDrw x y n s = _)
  unfold execDrw
  rcases memRead_cases s (indexAddr s) n.toNat with ⟨h, e⟩ | ⟨h, e⟩
  · exact Or.inl ⟨h, by rw [e]; rfl⟩
  · exact Or.inr ⟨h, by rw [e]; rfl⟩

/-- `FX0A`: no key is pressed and the tick waits, or the least pressed key is stored (R104). -/
theorem exec_ldVxK_cases (x : Reg) (s : State) :
    (lowestKey s = none ∧ exec (.ldVxK x) s = .next s.hold) ∨
    (∃ k, lowestKey s = some k ∧ exec (.ldVxK x) s = .next (s.advance.setV x (keyByte k))) := by
  show (_ ∧ execLdVxK x s = _) ∨ (∃ k, _ ∧ execLdVxK x s = _)
  unfold execLdVxK
  cases lowestKey s with
  | none => exact Or.inl ⟨rfl, rfl⟩
  | some k => exact Or.inr ⟨k, rfl, rfl⟩

/-- `FX33`: three digits are stored at `I`, or `OOB` is taken (R93). -/
theorem exec_ldB_cases (x : Reg) (s : State) :
    (indexAddr s + 3 ≤ 4096 ∧ exec (.ldB x) s =
      .next (s.advance.storeBytes (indexAddr s) (decimalDigits (s.getV x)))) ∨
    (¬ indexAddr s + 3 ≤ 4096 ∧ exec (.ldB x) s = .next (s.raise .oob)) := by
  show (_ ∧ execLdB x s = _) ∨ (_ ∧ execLdB x s = _)
  unfold execLdB
  rcases memWrite_cases s.advance (indexAddr s) (decimalDigits (s.getV x)) with ⟨h, e⟩ | ⟨h, e⟩
  · rw [length_decimalDigits] at h
    exact Or.inl ⟨by omega, by rw [e]; rfl⟩
  · rw [length_decimalDigits] at h
    exact Or.inr ⟨by omega, by rw [e]; rfl⟩

/-- `FX55`: `V[0]` .. `V[X]` are stored at `I`, or `OOB` is taken (R94). -/
theorem exec_storeRegs_cases (x : Reg) (s : State) :
    (indexAddr s + (x.val + 1) ≤ 4096 ∧ exec (.storeRegs x) s =
      .next (s.advance.storeBytes (indexAddr s) (regsUpTo s x))) ∨
    (¬ indexAddr s + (x.val + 1) ≤ 4096 ∧ exec (.storeRegs x) s = .next (s.raise .oob)) := by
  show (_ ∧ execStoreRegs x s = _) ∨ (_ ∧ execStoreRegs x s = _)
  unfold execStoreRegs
  rcases memWrite_cases s.advance (indexAddr s) (regsUpTo s x) with ⟨h, e⟩ | ⟨h, e⟩
  · rw [length_regsUpTo] at h
    exact Or.inl ⟨by omega, by rw [e]; rfl⟩
  · rw [length_regsUpTo] at h
    exact Or.inr ⟨by omega, by rw [e]; rfl⟩

/-- `FX65`: `V[0]` .. `V[X]` are loaded from `I`, or `OOB` is taken (R95). -/
theorem exec_loadRegs_cases (x : Reg) (s : State) :
    (indexAddr s + (x.val + 1) ≤ 4096 ∧ exec (.loadRegs x) s =
      .next (s.advance.setVs (s.bytesAt (indexAddr s) (x.val + 1)))) ∨
    (¬ indexAddr s + (x.val + 1) ≤ 4096 ∧ exec (.loadRegs x) s = .next (s.raise .oob)) := by
  show (_ ∧ execLoadRegs x s = _) ∨ (_ ∧ execLoadRegs x s = _)
  unfold execLoadRegs
  rcases memRead_cases s (indexAddr s) (x.val + 1) with ⟨h, e⟩ | ⟨h, e⟩
  · exact Or.inl ⟨by omega, by rw [e]; rfl⟩
  · exact Or.inr ⟨by omega, by rw [e]; rfl⟩

end Sys2Proof.Machine
end

