-- ==== Sys2Proof/Laws/PerInstr.lean ====
section
/-! SUPPORT. The family MatchesRow: the encoding of an instruction matches the mask and match of its row of the
opcode map (R47), one lemma per constructor. -/

namespace Sys2Proof.Laws.MatchesRow

/-- The opcode of `i` selects the row of R47 that `i` belongs to. -/
def Statement (i : Instr) : Prop := (Instr.row i).selects (encode i) = true

/-- Format NNN under the mask of its row. -/
theorem selects_formatNNN (f : BitVec 4) (nnn : BitVec 12) :
    Row.selects ⟨0xF000, formatNNN f 0⟩ (formatNNN f nnn) = true := by
  simp only [Row.selects, and_F000, fieldF_formatNNN, beq_self_eq_true]

/-- Format XNN under the mask of its row. -/
theorem selects_formatXNN (f : BitVec 4) (x : Reg) (nn : Byte) :
    Row.selects ⟨0xF000, formatNNN f 0⟩ (formatXNN f x nn) = true := by
  simp only [Row.selects, and_F000, fieldF_formatXNN, beq_self_eq_true]

/-- Format X, a fixed low byte, under the mask of its row. -/
theorem selects_formatX (f : BitVec 4) (x : Reg) (nn : Byte) :
    Row.selects ⟨0xF0FF, formatXNN f 0 nn⟩ (formatXNN f x nn) = true := by
  simp only [Row.selects, and_F0FF, fieldF_formatXNN, fieldNN_formatXNN, beq_self_eq_true]

/-- Format XY, a fixed low nibble, under the mask of its row. -/
theorem selects_formatXY (f : BitVec 4) (x y : Reg) (n : BitVec 4) :
    Row.selects ⟨0xF00F, formatXYN f 0 0 n⟩ (formatXYN f x y n) = true := by
  simp only [Row.selects, and_F00F, fieldF_formatXYN, fieldN_formatXYN, beq_self_eq_true]

/-- Format XYN under the mask of its row. -/
theorem selects_formatXYN (f : BitVec 4) (x y : Reg) (n : BitVec 4) :
    Row.selects ⟨0xF000, formatNNN f 0⟩ (formatXYN f x y n) = true := by
  simp only [Row.selects, and_F000, fieldF_formatXYN, beq_self_eq_true]

theorem nop : Statement .nop := rfl
theorem cls : Statement .cls := rfl
theorem ret : Statement .ret := rfl
theorem jp (nnn : BitVec 12) : Statement (.jp nnn) := selects_formatNNN _ nnn
theorem call (nnn : BitVec 12) : Statement (.call nnn) := selects_formatNNN _ nnn
theorem seImm (x : Reg) (nn : Byte) : Statement (.seImm x nn) := selects_formatXNN _ x nn
theorem sneImm (x : Reg) (nn : Byte) : Statement (.sneImm x nn) := selects_formatXNN _ x nn
theorem seReg (x y : Reg) : Statement (.seReg x y) := selects_formatXY _ x y _
theorem ldImm (x : Reg) (nn : Byte) : Statement (.ldImm x nn) := selects_formatXNN _ x nn
theorem addImm (x : Reg) (nn : Byte) : Statement (.addImm x nn) := selects_formatXNN _ x nn
theorem ldReg (x y : Reg) : Statement (.ldReg x y) := selects_formatXY _ x y _
theorem orReg (x y : Reg) : Statement (.orReg x y) := selects_formatXY _ x y _
theorem andReg (x y : Reg) : Statement (.andReg x y) := selects_formatXY _ x y _
theorem xorReg (x y : Reg) : Statement (.xorReg x y) := selects_formatXY _ x y _
theorem addReg (x y : Reg) : Statement (.addReg x y) := selects_formatXY _ x y _
theorem subReg (x y : Reg) : Statement (.subReg x y) := selects_formatXY _ x y _
theorem shr (x y : Reg) : Statement (.shr x y) := selects_formatXY _ x y _
theorem subnReg (x y : Reg) : Statement (.subnReg x y) := selects_formatXY _ x y _
theorem shl (x y : Reg) : Statement (.shl x y) := selects_formatXY _ x y _
theorem sneReg (x y : Reg) : Statement (.sneReg x y) := selects_formatXY _ x y _
theorem ldI (nnn : BitVec 12) : Statement (.ldI nnn) := selects_formatNNN _ nnn
theorem jpV0 (nnn : BitVec 12) : Statement (.jpV0 nnn) := selects_formatNNN _ nnn
theorem rnd (x : Reg) (nn : Byte) : Statement (.rnd x nn) := selects_formatXNN _ x nn
theorem drw (x y : Reg) (n : BitVec 4) : Statement (.drw x y n) := selects_formatXYN _ x y n
theorem skp (x : Reg) : Statement (.skp x) := selects_formatX _ x _
theorem sknp (x : Reg) : Statement (.sknp x) := selects_formatX _ x _
theorem ldVxDt (x : Reg) : Statement (.ldVxDt x) := selects_formatX _ x _
theorem ldVxK (x : Reg) : Statement (.ldVxK x) := selects_formatX _ x _
theorem ldDtVx (x : Reg) : Statement (.ldDtVx x) := selects_formatX _ x _
theorem ldStVx (x : Reg) : Statement (.ldStVx x) := selects_formatX _ x _
theorem addI (x : Reg) : Statement (.addI x) := selects_formatX _ x _
theorem ldF (x : Reg) : Statement (.ldF x) := selects_formatX _ x _
theorem ldB (x : Reg) : Statement (.ldB x) := selects_formatX _ x _
theorem storeRegs (x : Reg) : Statement (.storeRegs x) := selects_formatX _ x _
theorem loadRegs (x : Reg) : Statement (.loadRegs x) := selects_formatX _ x _

end Sys2Proof.Laws.MatchesRow
end

