-- ==== Sys2Proof/Laws/Tick.lean ====
section
/-! SUPPORT. What a CPU tick and a step can do, each said once. -/

namespace Sys2Proof.Machine

@[simp] theorem stopped_iff (s : State) : s.stopped = true ↔ s.fault ≠ .none := by
  simp [State.stopped]

/-- A machine without a fatal condition is not stopped. -/
theorem stopped_eq_false {s : State} (h : s.fault = .none) : s.stopped = false := by
  simp [State.stopped, h]

/-- A CPU tick: stopped, out of bounds at fetch, unrecognised, or the execution of the decoded instruction (R112). -/
theorem cpuTick_cases (rnd : Byte) (s : State) :
    (s.fault ≠ .none ∧ cpuTick rnd s = .next s) ∨
    (s.fault = .none ∧ 4095 ≤ s.pc.toNat ∧ cpuTick rnd s = .next (s.raise .oob)) ∨
    (s.fault = .none ∧ s.pc.toNat ≤ 4094 ∧
      (∃ e, decode (opcodeOf (s.byteAt s.pc.toNat) (s.byteAt (s.pc.toNat + 1))) = .error e) ∧
      cpuTick rnd s = .next (s.raise .badop)) ∨
    (s.fault = .none ∧ s.pc.toNat ≤ 4094 ∧
      ∃ i, decode (opcodeOf (s.byteAt s.pc.toNat) (s.byteAt (s.pc.toNat + 1))) = .ok i ∧
        cpuTick rnd s = exec i { s with rnd := rnd }) := by
  unfold cpuTick
  by_cases hf : s.fault = .none
  · rw [stopped_eq_false hf]
    rcases fetch_cases s with ⟨hpc, he⟩ | ⟨hpc, he⟩
    · rw [he]
      cases hd : decode (opcodeOf (s.byteAt s.pc.toNat) (s.byteAt (s.pc.toNat + 1))) with
      | error e => simp [hf, hpc, hd]
      | ok i => simp [hf, hpc, hd]
    · rw [he]
      simp [hf, hpc]
  · simp [(stopped_iff s).2 hf, hf]

/-- A running machine whose fetch succeeds executes what it decodes (R56). -/
theorem cpuTick_eq_exec {rnd : Byte} {s : State} {i : Instr} (hf : s.fault = .none) (hpc : s.pc.toNat ≤ 4094)
    (hd : decode (opcodeOf (s.byteAt s.pc.toNat) (s.byteAt (s.pc.toNat + 1))) = .ok i) :
    cpuTick rnd s = exec i { s with rnd := rnd } := by
  rcases cpuTick_cases rnd s with ⟨h, -⟩ | ⟨-, h, -⟩ | ⟨-, -, ⟨e, h⟩, -⟩ | ⟨-, -, j, hj, h⟩
  · exact absurd hf h
  · omega
  · rw [hd] at h
    cases h
  · rw [hd] at hj
    cases hj
    exact h

/-- A step handles the next event (R6). -/
theorem step_eq (s : State) : step s = handleEvent (takeNext s).1 (takeNext s).2 := rfl

/-- The host's next event: the oldest queued; with none queued, what the host does then (log entries 4 and 5). The
machine is not touched by the taking. -/
theorem takeNext_cases (s : State) :
    (∃ e rest, s.inbox = e :: rest ∧ takeNext s = (e, { s with inbox := rest })) ∨
    (s.inbox = [] ∧ s.idle = .cpuTicks ∧
      takeNext s = (.cpuTick (Config.freeRnd s.draws), { s with draws := s.draws + 1 })) ∨
    (∃ e others, s.inbox = [] ∧ s.idle = .repeats e others ∧ takeNext s = (e, { s with inbox := others })) ∨
    (s.inbox = [] ∧ s.idle = .free ∧ takeNext s = (Config.freeEvent s.draws, { s with draws := s.draws + 1 })) := by
  unfold takeNext
  split
  · exact Or.inl ⟨_, _, ‹_›, rfl⟩
  · split
    · exact Or.inr (Or.inl ⟨‹_›, ‹_›, rfl⟩)
    · exact Or.inr (Or.inr (Or.inl ⟨_, _, ‹_›, ‹_›, rfl⟩))
    · exact Or.inr (Or.inr (Or.inr ⟨‹_›, ‹_›, rfl⟩))

/-- A step takes the oldest event of the inbox (R6). -/
theorem step_of_inbox_cons {s : State} {e : HostEvent} {rest : List HostEvent} (h : s.inbox = e :: rest) :
    step s = handleEvent e { s with inbox := rest } := by
  rw [step_eq, takeNext, h]

/-- A step with an empty inbox, the host issuing CPU ticks, is a CPU tick with a free random byte. -/
theorem step_of_cpuTicks {s : State} (h : s.inbox = []) (hi : s.idle = .cpuTicks) :
    step s = cpuTick (Config.freeRnd s.draws) { s with draws := s.draws + 1 } := by
  rw [step_eq, takeNext, h, hi]
  rfl

/-- A step with an empty inbox, the host repeating a sequence of events, takes the first and queues the others. -/
theorem step_of_repeats {s : State} {e : HostEvent} {others : List HostEvent} (h : s.inbox = [])
    (hi : s.idle = .repeats e others) : step s = handleEvent e { s with inbox := others } := by
  rw [step_eq, takeNext, h, hi]

end Sys2Proof.Machine
end

