-- ==== Sys2Proof/Tests/Slice0.lean ====
section
/-! SUPPORT. The model's own tests. Expected values are those of spec/95_test_vectors.md (its vector names stand in
the docstrings) or of the example in the rule named; opcodes are written out from the patterns of R47. Then, for
each statement of Certificates/Slice0/Obligations.lean with hypotheses, states and operands that meet them. -/

namespace Sys2Proof.Tests

open Sys2Proof Sys2Proof.Machine

/-! ### Helpers -/

/-- The base state B(op) of spec/95: after reset, with `op` loaded at 512. -/
def base (op : Opcode) : State :=
  State.reset.storeBytes 512 [highByte op, lowByte op]

/-- The next state of an outcome, if it is one. -/
def nextState (o : Host.Outcome State Fault Refusal) : Option State :=
  match o with
  | .next t => some t
  | .fault _ => none
  | .refused _ => none

/-- One CPU tick with the random byte 0, through `step`. -/
def tick (s : State) : Option State := nextState (step { s with inbox := [.cpuTick 0] })

/-- One event through `step`. -/
def event (e : HostEvent) (s : State) : Option State := nextState (step { s with inbox := [e] })

/-- `s` with `V[1] = a`, `V[2] = b`, `V[15] = f`. -/
def regs (a b f : Byte) (s : State) : State := ((s.setV 1 a).setV 2 b).setV 15 f

/-- `V[1]`, `V[15]`, `V[2]` and `pc` after a tick of `op` from `V[1] = a`, `V[2] = b`, `V[15] = f`. -/
def alu (op : Opcode) (a b f : Byte) : Option (Byte × Byte × Byte × Word) :=
  (tick (regs a b f (base op))).map (fun t => (t.getV 1, t.getV 15, t.getV 2, t.pc))

/-- `pc` after a tick. -/
def pcAfter (s : State) : Option Word := (tick s).map (·.pc)

/-- The fault code and `pc` after a tick. -/
def faultAfter (s : State) : Option (FaultCode × Word) := (tick s).map (fun t => (t.fault, t.pc))

/-- The indices of the cells that are on. -/
def cellsOn (d : Display) : List Nat :=
  ((d.toList.flatMap (fun row => row.toList)).zipIdx.filter (fun c => c.1)).map (fun c => c.2)

/-! ### Well-formedness refuses what is ill formed -/

/-- One word of each illegal family (R52; vectors S9, K19, A47, M23). -/
theorem test_illegal_opcodes_refused :
    [0x0001, 0x00FD, 0x0FFF, 0x5121, 0x8128, 0x812F, 0x9121, 0xE19F, 0xE1A0, 0xF130, 0xF100, 0xFFFF].all
      (fun op => !legalOpcode op) = true := by decide

/-- The first and last opcode of some rows are accepted (R47). -/
theorem test_legal_opcodes_accepted :
    [0x0000, 0x00E0, 0x00EE, 0x1000, 0x1FFF, 0x5FF0, 0x800E, 0x9000, 0xDFFF, 0xEFA1, 0xFF65].all
      (fun op => legalOpcode op) = true := by decide

/-- 3584 bytes fit, 3585 do not (R43; vectors L1, L2). -/
theorem test_image_length : imageFits (List.replicate 3584 0) = true ∧ imageFits (List.replicate 3585 0) = false := by
  simp only [imageFits, List.length_replicate]
  decide

/-! ### Decoding, one word per constructor -/

theorem test_decode_control :
    decode 0x0000 = .ok .nop ∧ decode 0x00E0 = .ok .cls ∧ decode 0x00EE = .ok .ret ∧
    decode 0x1ABC = .ok (.jp 0xABC) ∧ decode 0x2ABC = .ok (.call 0xABC) ∧ decode 0xB30F = .ok (.jpV0 0x30F) := by
  decide

theorem test_decode_skips :
    decode 0x3142 = .ok (.seImm 1 0x42) ∧ decode 0x4E17 = .ok (.sneImm 14 0x17) ∧
    decode 0x5120 = .ok (.seReg 1 2) ∧ decode 0x9AB0 = .ok (.sneReg 10 11) ∧
    decode 0xE59E = .ok (.skp 5) ∧ decode 0xE6A1 = .ok (.sknp 6) := by
  decide

theorem test_decode_alu :
    decode 0x6A2B = .ok (.ldImm 10 0x2B) ∧ decode 0x710A = .ok (.addImm 1 0x0A) ∧ decode 0x8120 = .ok (.ldReg 1 2) ∧
    decode 0x8341 = .ok (.orReg 3 4) ∧ decode 0x8562 = .ok (.andReg 5 6) ∧ decode 0x8783 = .ok (.xorReg 7 8) ∧
    decode 0x89A4 = .ok (.addReg 9 10) ∧ decode 0x8BC5 = .ok (.subReg 11 12) ∧ decode 0x8DE6 = .ok (.shr 13 14) ∧
    decode 0x8F07 = .ok (.subnReg 15 0) ∧ decode 0x812E = .ok (.shl 1 2) ∧ decode 0xC1F0 = .ok (.rnd 1 0xF0) := by
  decide

theorem test_decode_index_display :
    decode 0xA123 = .ok (.ldI 0x123) ∧ decode 0xD125 = .ok (.drw 1 2 5) ∧ decode 0xF21E = .ok (.addI 2) ∧
    decode 0xF329 = .ok (.ldF 3) ∧ decode 0xF433 = .ok (.ldB 4) ∧ decode 0xF555 = .ok (.storeRegs 5) ∧
    decode 0xF665 = .ok (.loadRegs 6) := by
  decide

theorem test_decode_timers_keys :
    decode 0xF307 = .ok (.ldVxDt 3) ∧ decode 0xF00A = .ok (.ldVxK 0) ∧ decode 0xF115 = .ok (.ldDtVx 1) ∧
    decode 0xF418 = .ok (.ldStVx 4) := by
  decide

/-- High byte first: the bytes A1 23 are the opcode A123 (vector T2), and fewer than two bytes are none. -/
theorem test_decode_bytes :
    decodeBytes [0xA1, 0x23, 0x77] = .ok (.ldI 0x123, [0x77]) ∧ decodeBytes [0xA1] = .error .tooShort ∧
    decodeTableWord 16 0xA123 = some (.ldI 0x123) ∧ decodeTableWord 16 0x5121 = none := by
  decide

/-! ### Control flow -/

/-- T1. -/
theorem test_nop : tick (base 0x0000) = some { base 0x0000 with pc := 0x202 } := by decide

/-- F1, F3. -/
theorem test_jp : pcAfter (base 0x1ABC) = some 0xABC ∧ pcAfter (base 0x1FFF) = some 0xFFF := by decide

/-- F4, F5. -/
theorem test_call :
    (tick (base 0x2ABC)).map (fun t => (t.pc, t.sp, t.stack[0])) = some (0xABC, 1, 0x202) ∧
    (tick { base 0x2ABC with sp := 15, stack := State.reset.stack.set 15 0x777 }).map
      (fun t => (t.pc, t.sp, t.stack[15])) = some (0xABC, 16, 0x202) := by decide

/-- F6. -/
theorem test_call_full : faultAfter { base 0x2ABC with sp := 16 } = some (.stack, 0x200) := by decide

/-- F7, F9. -/
theorem test_ret :
    (tick { base 0x00EE with sp := 1, stack := State.reset.stack.set 0 0x345 }).map
      (fun t => (t.pc, t.sp, t.stack[0])) = some (0x345, 0, 0x345) ∧
    (tick { base 0x00EE with sp := 16, stack := State.reset.stack.set 15 0xFFF }).map
      (fun t => (t.pc, t.sp)) = some (0xFFF, 15) := by decide

/-- F8. -/
theorem test_ret_empty : faultAfter (base 0x00EE) = some (.stack, 0x200) := by decide

/-- F10, F11, F12. -/
theorem test_jpV0 :
    pcAfter ((base 0xB300).setV 0 0x45) = some 0x345 ∧ pcAfter ((base 0xBFFF).setV 0 0xFF) = some 0x10FE ∧
    pcAfter ((base 0xB300).setV 3 0x99) = some 0x300 := by decide

/-! ### Skips -/

/-- K1, K2, K11. -/
theorem test_seImm :
    pcAfter ((base 0x3142).setV 1 0x42) = some 0x204 ∧ pcAfter ((base 0x3143).setV 1 0x42) = some 0x202 ∧
    pcAfter ((base 0x3F01).setV 15 1) = some 0x204 := by decide

/-- K3, K4. -/
theorem test_sneImm :
    pcAfter ((base 0x4142).setV 1 0x42) = some 0x202 ∧ pcAfter ((base 0x4143).setV 1 0x42) = some 0x204 := by decide

/-- K5, K6, K7. -/
theorem test_seReg :
    pcAfter (regs 7 7 0 (base 0x5120)) = some 0x204 ∧ pcAfter (regs 7 8 0 (base 0x5120)) = some 0x202 ∧
    pcAfter (regs 7 8 0 (base 0x5110)) = some 0x204 := by decide

/-- K8, K9, K10. -/
theorem test_sneReg :
    pcAfter (regs 7 8 0 (base 0x9120)) = some 0x204 ∧ pcAfter (regs 7 7 0 (base 0x9120)) = some 0x202 ∧
    pcAfter (regs 7 8 0 (base 0x9110)) = some 0x202 := by decide

/-- K12, K13, K16. -/
theorem test_skp :
    pcAfter (((base 0xE09E).setV 0 5).setKey 5 true) = some 0x204 ∧
    pcAfter (((base 0xE09E).setV 0 5).setKey 6 true) = some 0x202 ∧
    pcAfter (((base 0xE09E).setV 0 0x15).setKey 5 true) = some 0x202 := by decide

/-- K14, K15, K17. -/
theorem test_sknp :
    pcAfter (((base 0xE0A1).setV 0 5).setKey 5 true) = some 0x202 ∧
    pcAfter ((base 0xE0A1).setV 0 5) = some 0x204 ∧
    pcAfter (((base 0xE0A1).setV 0 0x15).setKey 5 true) = some 0x204 := by decide

/-! ### Registers, arithmetic, logic (`alu` lists V1, VF, V2, pc) -/

/-- A37, A38. -/
theorem test_ldImm :
    (tick (base 0x6AFF)).map (fun t => (t.getV 10, t.pc)) = some (0xFF, 0x202) ∧
    (tick (base 0x6F12)).map (fun t => t.getV 15) = some 0x12 := by decide

/-- S3, A39, A42. -/
theorem test_addImm :
    alu 0x710A 250 0 0x77 = some (4, 0x77, 0, 0x202) ∧ alu 0x71FF 0xFF 0 0x77 = some (0xFE, 0x77, 0, 0x202) ∧
    alu 0x7F01 0 0 0xFF = some (0, 0, 0, 0x202) := by decide

/-- A1, A25. -/
theorem test_ldReg :
    alu 0x8120 0x11 0x22 0x77 = some (0x22, 0x77, 0x22, 0x202) ∧
    alu 0x8F10 0x90 0 0x83 = some (0x90, 0x90, 0, 0x202) := by decide

/-- A2. -/
theorem test_orReg : alu 0x8121 0xCA 0x5C 0x77 = some (0xDE, 0x77, 0x5C, 0x202) := by decide

/-- A3. -/
theorem test_andReg : alu 0x8122 0xCA 0x5C 0x77 = some (0x48, 0x77, 0x5C, 0x202) := by decide

/-- A4, A21. -/
theorem test_xorReg :
    alu 0x8123 0xCA 0x5C 0x77 = some (0x96, 0x77, 0x5C, 0x202) ∧
    alu 0x8113 0xFF 0 0x77 = some (0, 0x77, 0, 0x202) := by decide

/-- A5, A6, A26, A31. -/
theorem test_addReg :
    alu 0x8124 0xFF 0x01 0 = some (0, 1, 0x01, 0x202) ∧ alu 0x8124 0x80 0x7F 1 = some (0xFF, 0, 0x7F, 0x202) ∧
    alu 0x8F14 0x90 0 0x83 = some (0x90, 1, 0, 0x202) ∧ alu 0x81F4 0x90 0 0x83 = some (0x13, 1, 0, 0x202) := by decide

/-- A8, A9, A10, A27. -/
theorem test_subReg :
    alu 0x8125 0xFF 0x01 0 = some (0xFE, 1, 0x01, 0x202) ∧ alu 0x8125 0x01 0xFF 1 = some (0x02, 0, 0xFF, 0x202) ∧
    alu 0x8125 0 0 0 = some (0, 1, 0, 0x202) ∧ alu 0x8F15 0x90 0 0x83 = some (0x90, 0, 0, 0x202) := by decide

/-- A11, A12, A13, A28. -/
theorem test_subnReg :
    alu 0x8127 0xFF 0x01 1 = some (0x02, 0, 0x01, 0x202) ∧ alu 0x8127 0x01 0xFF 0 = some (0xFE, 1, 0xFF, 0x202) ∧
    alu 0x8127 0 0 0 = some (0, 1, 0, 0x202) ∧ alu 0x8F17 0x90 0 0x83 = some (0x90, 1, 0, 0x202) := by decide

/-- S7, A14, A16, A29. -/
theorem test_shr :
    alu 0x8126 0x03 0xAA 0 = some (0x01, 1, 0xAA, 0x202) ∧ alu 0x8126 0xFF 0x01 0 = some (0x7F, 1, 0x01, 0x202) ∧
    alu 0x8126 0x80 0x01 1 = some (0x40, 0, 0x01, 0x202) ∧ alu 0x8F16 0x90 0 0x83 = some (0x90, 0x41, 0, 0x202) := by
  decide

/-- A17, A18, A30. -/
theorem test_shl :
    alu 0x812E 0xFF 0x01 0 = some (0xFE, 1, 0x01, 0x202) ∧ alu 0x812E 0x40 0xFF 1 = some (0x80, 0, 0xFF, 0x202) ∧
    alu 0x8F1E 0x90 0 0x83 = some (0x90, 0x06, 0, 0x202) := by decide

/-- A43, A45, with the byte that came with the tick. -/
theorem test_rnd :
    (event (.cpuTick 0xAB) (regs 0x55 0 0x77 (base 0xC1F0))).map (fun t => (t.getV 1, t.getV 15)) = some (0xA0, 0x77) ∧
    (event (.cpuTick 0x5A) (base 0xC1FF)).map (fun t => t.getV 1) = some 0x5A := by decide

/-! ### Index register and memory -/

/-- M1. -/
theorem test_ldI : (tick ((base 0xA123).setI 0xFFF)).map (fun t => (t.I, t.pc)) = some (0x123, 0x202) := by decide

/-- M2, M3. -/
theorem test_addI :
    (tick (regs 0 2 0x77 ((base 0xF21E).setI 0xFFF))).map (fun t => (t.I, t.getV 15)) = some (0x1001, 0x77) ∧
    (tick (regs 0 2 0x77 ((base 0xF21E).setI 0xFFFF))).map (fun t => t.I) = some 1 := by decide

/-- M6, M7. -/
theorem test_ldF :
    (tick ((base 0xF029).setV 0 0xFA)).map (fun t => t.I) = some 50 ∧
    (tick (((base 0xF029).setV 0 0x0F).setI 0x999)).map (fun t => t.I) = some 75 := by decide

/-- M10 (from clear memory), M11. -/
theorem test_ldB :
    (tick (((base 0xF033).setV 0 109).setI 0x300)).map (fun t => (t.bytesAt 0x300 3, t.I)) =
      some ([1, 0, 9], 0x300) ∧
    (tick (((base 0xF033).setV 0 255).setI 4093)).map (fun t => t.bytesAt 4093 3) = some [2, 5, 5] := by decide

/-- M12. -/
theorem test_ldB_oob :
    (tick (((base 0xF033).setV 0 255).setI 4094)).map (fun t => (t.fault, t.pc, t.bytesAt 4094 2)) =
      some (.oob, 0x200, [0, 0]) := by decide

/-- M13, M16. -/
theorem test_storeRegs :
    (tick (((regs 2 3 9 (base 0xF255)).setV 0 1).setI 0x300)).map (fun t => (t.bytesAt 0x300 4, t.I)) =
      some ([1, 2, 3, 0], 0x300) ∧
    (tick (((base 0xFF55).setV 0 1).setI 4081)).map (fun t => (t.fault, t.byteAt 4081)) = some (.oob, 0) := by decide

/-- M17, M20: the first font bytes, `VF` among the loaded registers; nothing loaded past the end. -/
theorem test_loadRegs :
    (tick (base 0xFF65)).map (fun t => (t.V.toList, t.I)) =
      some ([0xF0, 0x90, 0x90, 0x90, 0xF0, 0x20, 0x60, 0x20, 0x20, 0x70, 0xF0, 0x10, 0xF0, 0x80, 0xF0, 0xF0], 0) ∧
    (tick ((regs 9 0 0 (base 0xF165)).setI 4095)).map (fun t => (t.fault, t.getV 1)) = some (.oob, 9) := by decide

/-! ### Display -/

/-- G1. -/
theorem test_cls :
    (tick ((regs 0 0 0x77 (base 0x00E0)).setDisp (State.reset.disp.invert 0 0))).map
      (fun t => (t.disp, t.getV 15, t.pc)) = some (State.reset.disp, 0x77, 0x202) := by decide

/-- G2, G5. -/
theorem test_drw :
    (tick (regs 10 3 9 ((base 0xD125).setI 25))).map (fun t => (cellsOn t.disp, t.getV 15)) =
      some ([202, 203, 204, 205, 266, 330, 331, 332, 333, 397, 458, 459, 460, 461], 0) ∧
    (tick ((((base 0xD014).setV 0 62).setV 1 30).setI 0x300
        |>.storeBytes 0x300 [0xFF, 0xFF, 0xFF, 0xFF])).map
      (fun t => (cellsOn t.disp, t.getV 15)) = some ([1982, 1983, 2046, 2047], 0) := by decide +kernel

/-- G7, G9. -/
theorem test_drw_collision :
    (tick (((base 0xD011).setI 0x300).storeBytes 0x300 [0xC0]
        |>.setDisp ((State.reset.disp.invert 1 0).invert 2 0))).map (fun t => (cellsOn t.disp, t.getV 15)) =
      some ([0, 2], 1) ∧
    (tick (regs 0 0 9 ((base 0xD010).setI 5000))).map (fun t => (t.disp, t.getV 15, t.fault)) =
      some (State.reset.disp, 0, .none) := by decide +kernel

/-- G6: a machine whose `SPRITE_EDGE` is wrap draws all 32 pixels. -/
theorem test_drw_wrap :
    (tick { ((((base 0xD014).setV 0 62).setV 1 30).setI 0x300).storeBytes 0x300 [0xFF, 0xFF, 0xFF, 0xFF] with
        params := { defaultParams with edge := .wrap } }).map (fun t => cellsOn t.disp) =
      some [0, 1, 2, 3, 4, 5, 62, 63, 64, 65, 66, 67, 68, 69, 126, 127, 1920, 1921, 1922, 1923, 1924, 1925, 1982, 1983,
       1984, 1985, 1986, 1987, 1988, 1989, 2046, 2047] := by decide +kernel

/-! ### Timers and keys -/

/-- W1, W2, W3. -/
theorem test_timer_instructions :
    (tick { base 0xF107 with dt := 0x3C }).map (fun t => (t.getV 1, t.dt, t.pc)) = some (0x3C, 0x3C, 0x202) ∧
    (tick ((base 0xF115).setV 1 0xFF)).map (fun t => t.dt) = some 0xFF ∧
    (tick ((base 0xF118).setV 1 2)).map (fun t => (t.st, soundOn t)) = some (2, true) := by decide

/-- W8. -/
theorem test_ldVxK_waits :
    (tick ((base 0xF00A).setV 0 0x99)).map (fun t => (t.pc, t.waiting, t.getV 0)) = some (0x200, true, 0x99) := by decide

/-- W10, W11. -/
theorem test_ldVxK_completes :
    (tick { ((base 0xF00A).setKey 3 true).setKey 7 true with waiting := true }).map
      (fun t => (t.getV 0, t.pc, t.waiting)) = some (3, 0x202, false) ∧
    (tick ((base 0xFF0A).setKey 15 true)).map (fun t => t.getV 15) = some 0x0F := by decide

/-! ### Fetch, stopping, host events -/

/-- T3, T4, T7, and the order of the checks (R112). -/
theorem test_fetch_bounds :
    pcAfter { State.reset.storeBytes 4094 [0x12, 0x00] with pc := 4094 } = some 0x200 ∧
    faultAfter { base 0x00EE with pc := 4095 } = some (.oob, 4095) ∧
    faultAfter { State.reset with pc := 0 } = some (.badop, 0) := by decide

/-- S9: an unrecognised opcode changes `fault` and nothing else, `pc` and `waiting` included. -/
theorem test_badop :
    tick { base 0x5121 with waiting := true } = some { base 0x5121 with waiting := true, fault := .badop } := by decide

/-- T9, W7, W14, L5: a stopped machine takes every event but reset without effect. -/
theorem test_stopped :
    [HostEvent.cpuTick 0, .timerTick, .keySet 9 true, .loadImage [0x00, 0xE0], .displayRead].all
      (fun e => event e { base 0x0000 with fault := .stack, dt := 5 } ==
        some { base 0x0000 with fault := .stack, dt := 5 }) = true := by decide

/-- L7: reset from a stopped and waiting machine. -/
theorem test_reset_event :
    event .reset { ((base 0x1234).setKey 3 true).setV 4 9 with fault := .load, waiting := true, sp := 16 } =
      some State.reset := by decide

/-- W4, W5. -/
theorem test_timer_tick :
    (event .timerTick { base 0 with dt := 5, st := 3 }).map (fun t => (t.dt, t.st, t.pc)) = some (4, 2, 0x200) ∧
    (event .timerTick { base 0 with dt := 1, st := 0 }).map (fun t => (t.dt, t.st)) = some (0, 0) := by decide

/-- W13. -/
theorem test_key_set :
    (event (.keySet 9 true) (base 0)).map (fun t => t.keys) = some (State.reset.keys.set 9 true) ∧
    (event (.keySet 9 false) ((base 0).setKey 9 true)).map (fun t => t.keys) = some State.reset.keys := by decide

/-- L4. -/
theorem test_load_image :
    (event (.loadImage [0x00, 0xE0]) { (base 0x1234).setV 3 9 with pc := 0x234 }).map
      (fun t => (t.bytesAt 511 4, t.pc, t.getV 3)) = some ([0, 0x00, 0xE0, 0], 0x234, 9) := by decide

/-- L2. -/
theorem test_load_image_overlong (bytes : List Byte) (h : bytes.length = 3585) :
    event (.loadImage bytes) State.reset = some (State.reset.raise .load) := by
  have hl : imageFits bytes = false := by simp [imageFits, h, Config.maxImage]
  simp [event, nextState, step, nextEvent, takeNext, handleEvent, handleLoadImage, State.stopped, hl, commit, State.reset,
    State.resetWith, CoreState.reset]

/-- The word placed by `withFetchWord` is what the very next step runs. -/
theorem test_withFetchWord :
    (nextState (step (State.reset.withFetchWord 16 0x6A2B))).map (fun t => (t.getV 10, t.pc)) = some (0x2B, 0x202) := by
  decide

/-- A machine with another font table: it reads that table, and its reset restores it (R27). -/
theorem test_other_font :
    let s := { State.resetWith { defaultParams with font := Vector.replicate 80 0x5A } with inbox := [.reset] }
    (nextState (step (s.storeBytes 3 [0]))).map (fun t => t.bytesAt 0 5) = some [0x5A, 0x5A, 0x5A, 0x5A, 0x5A] ∧
    (tick (s.storeBytes 512 [0xF0, 0x65])).map (fun t => t.getV 0) = some 0x5A := by decide

/-- A host that issues timer ticks for ever, interleaved with a key pressed (R6, R118, R120): two steps. -/
theorem test_repeated_events :
    let s := { State.reset with st := 9, idle := .repeats .timerTick [.keySet 9 true] }
    ((nextState (step s)).bind (fun t => nextState (step t))).map
      (fun t => (t.st, t.keys, t.inbox, t.idle == s.idle)) = some (8, State.reset.keys.set 9 true, [], true) := by decide

/-! ### Memory -/

/-- Writing what an unlisted address reads as removes the cell; cells stay sorted. -/
theorem test_memory_canonical :
    Memory.write [(512, 1), (600, 2)] font 512 0 = [(600, 2)] ∧ Memory.write [(600, 2)] font 5 0x20 = [(600, 2)] ∧
    Memory.write [(600, 2)] font 5 0x21 = [(5, 0x21), (600, 2)] := by decide

/-- What the canonical form refuses: rising order broken, a cell listed that reads the same unlisted, a cell above 4095. -/
theorem test_memory_not_canonical :
    ¬ Memory.wf [(600, 2), (512, 1)] font ∧ ¬ Memory.wf [(600, 0)] font ∧ ¬ Memory.wf [(4096, 1)] font := by decide

/-! ### Witnesses: each hypothesis of each statement is met, at the ends of its range -/

/-- SpecWordsDecode has no hypothesis; this is the illegal space and its complement, an opcode on each side. -/
theorem witness_illegalSpace :
    IllegalOpcode 0x0001 ∧ IllegalOpcode 0x0FFF ∧ IllegalOpcode 0x5001 ∧ IllegalOpcode 0x800D ∧ IllegalOpcode 0x9FFF ∧
    IllegalOpcode 0xE09F ∧ IllegalOpcode 0xFFFF ∧ ¬ IllegalOpcode 0x0000 ∧ ¬ IllegalOpcode 0x00EE ∧
    ¬ IllegalOpcode 0x5FF0 ∧ ¬ IllegalOpcode 0x800E ∧ ¬ IllegalOpcode 0xFF65 := by
  refine ⟨?_, ?_, ?_, ?_, ?_, ?_, ?_, ?_, ?_, ?_, ?_, ?_⟩ <;> (simp only [IllegalOpcode]; decide)

/-- EncodeDecodeRoundTrip, OpcodeSelectsOneRow: an opcode that decodes, and one that does not. -/
theorem witness_decode : decode 0xDFFF = .ok (.drw 15 15 15) ∧ ∀ i, decode 0x5121 ≠ .ok i :=
  ⟨by decide, fun i h => by cases (show decode 0x5121 = .error (.badop 0x5121) by decide).symm.trans h⟩

/-- StepRunsDecodedInstruction: each clause, at the last `pc` a fetch succeeds from. -/
theorem witness_step :
    let s := { State.reset.storeBytes 4094 [0x6A, 0x2B] with pc := 4094 }
    s.fault = .none ∧ s.pc.toNat ≤ 4094 ∧
      decode (opcodeOf (s.byteAt s.pc.toNat) (s.byteAt (s.pc.toNat + 1))) = .ok (.ldImm 10 0x2B) ∧ s.inbox = [] ∧
      s.idle = .cpuTicks ∧ ({ s with inbox := [.cpuTick 7] } : State).inbox = .cpuTick 7 :: [] ∧
      ({ s with idle := .repeats (.cpuTick 7) [.timerTick] } : State).idle = .repeats (.cpuTick 7) [.timerTick] := by
  decide

/-- FetchReadsTwoBytesBigEndian: both sides of the bound. -/
theorem witness_fetch :
    ({ State.reset with pc := 4094 } : State).pc.toNat + 1 ≤ 4095 ∧
    4095 < ({ State.reset with pc := 4095 } : State).pc.toNat + 1 := by decide

/-- CpuTickTakesExactlyTheseFatals: each stage in turn, on a running machine. -/
theorem witness_fatals :
    4095 < ({ base 0x00EE with pc := 4095 } : State).pc.toNat + 1 ∧
    opcodeOf ((base 0x5121).byteAt 512) ((base 0x5121).byteAt 513) = 0x5121 ∧
    opcodeOf ((base 0xFF55).byteAt 512) ((base 0xFF55).byteAt 513) = 0xFF55 ∧
    decode 0xFF55 = .ok (.storeRegs 15) := by decide

/-- RaisesStack at `sp = 16` and `sp = 0`, and neither between. -/
theorem witness_raisesStack :
    RaisesStack (.call 5) { State.reset with sp := 16 } ∧ RaisesStack .ret State.reset ∧
    ¬ RaisesStack (.call 5) { State.reset with sp := 15 } ∧ ¬ RaisesStack .ret { State.reset with sp := 1 } := by
  refine ⟨Or.inl ⟨5, rfl, rfl⟩, Or.inr ⟨rfl, rfl⟩, ?_, ?_⟩
  · rintro (⟨_, -, h⟩ | ⟨h, -⟩)
    · revert h
      decide
    · cases h
  · rintro (⟨_, h, -⟩ | ⟨-, h⟩)
    · cases h
    · revert h
      decide

/-- RaisesOob one past the last legal address of each access, and not at it (`FX55`). -/
theorem witness_raisesOob :
    RaisesOob (.drw 0 1 3) { State.reset with I := 4094 } ∧ RaisesOob (.ldB 0) { State.reset with I := 4094 } ∧
    RaisesOob (.storeRegs 15) { State.reset with I := 4081 } ∧ RaisesOob (.loadRegs 1) { State.reset with I := 4095 } ∧
    ¬ RaisesOob (.storeRegs 15) { State.reset with I := 4080 } := by
  refine ⟨Or.inl ⟨0, 1, 3, rfl, by decide, by decide⟩, Or.inr (Or.inl ⟨0, rfl, by decide⟩),
    Or.inr (Or.inr (Or.inl ⟨15, rfl, by decide⟩)), Or.inr (Or.inr (Or.inr ⟨1, rfl, by decide⟩)), ?_⟩
  rintro (⟨_, _, _, h, -⟩ | ⟨_, h, -⟩ | ⟨x, h, hx⟩ | ⟨_, h, -⟩)
  · cases h
  · cases h
  · cases h
    revert hx
    decide
  · cases h

/-- FatalEventChangesOnlyFault: a CPU tick that takes a fatal condition. -/
theorem witness_fatalEvent :
    HostEvent.cpuTick 0 ≠ .reset ∧
      ∃ t, handleEvent (.cpuTick 0) (base 0x5121) = .next t ∧ t.fault ≠ (base 0x5121).fault :=
  ⟨by decide, (base 0x5121).raise .badop, rfl, by decide⟩

/-- StoppedMachineIsFrozen: each clause. -/
theorem witness_stopped :
    let s := State.reset.raise .oob
    s.fault ≠ .none ∧ s.inbox = [] ∧ s.idle = .cpuTicks ∧
      ({ s with idle := .repeats .timerTick [.reset] } : State).idle = .repeats .timerTick [.reset] ∧
      ({ s with inbox := [.timerTick, .reset] } : State).inbox = .timerTick :: [.reset] ∧
      HostEvent.timerTick ≠ .reset := by decide

/-- ResetEventRestoresFromAnyState: from a stopped, waiting machine with other events behind. -/
theorem witness_resetEvent :
    ({ State.reset.raise .load with waiting := true, inbox := [.reset, .timerTick] } : State).inbox =
      .reset :: [.timerTick] := by decide

/-- TimerTicksCountDownToZero: more ticks than one timer holds, running and stopped. -/
theorem witness_timerTicks :
    let s := { State.reset with dt := 1, st := 5, inbox := [.timerTick, .timerTick, .displayRead] }
    s.inbox = List.replicate 2 .timerTick ++ [.displayRead] ∧ s.fault = .none ∧ (s.raise .stack).fault ≠ .none := by
  decide

/-- KeySetSetsOneKey: the last key, running and stopped. -/
theorem witness_keySet :
    let s := { State.reset with inbox := [.keySet 15 true] }
    s.inbox = .keySet 15 true :: [] ∧ s.fault = .none ∧ (s.raise .badop).fault ≠ .none := by decide

/-- LoadImageCopiesOrTakesFatalLoad: the longest image that fits, the shortest that does not, and a stopped machine. -/
theorem witness_loadImage :
    State.reset.memWf ∧ State.reset.fault = .none ∧ (List.replicate 3584 (0xAA : Byte)).length ≤ 3584 ∧
      3584 < (List.replicate 3585 (0xAA : Byte)).length ∧ (State.reset.raise .stack).fault ≠ .none ∧
      ({ State.reset with inbox := [.loadImage (List.replicate 3584 0xAA)] } : State).inbox =
        .loadImage (List.replicate 3584 0xAA) :: [] := by
  rw [List.length_replicate, List.length_replicate]
  exact ⟨resetWith_memWf _, rfl, by decide, by decide, by decide, rfl⟩

/-- DisplayReadIsRowMajor. -/
theorem witness_displayRead : ({ State.reset with inbox := [.displayRead] } : State).inbox = .displayRead :: [] := rfl

/-- CallPushesReturnAddress, CallThenReturnComesBack: the first entry, the last one, and the full stack. -/
theorem witness_call :
    State.reset.sp.val = (0 : Fin 16).val ∧ ({ State.reset with sp := 15 } : State).sp.val = (15 : Fin 16).val ∧
    ({ State.reset with sp := 15 } : State).sp.val < 16 ∧ ({ State.reset with sp := 16 } : State).sp.val = 16 := by decide

/-- ReturnPopsIntoPc: the full stack, the last entry, and the empty stack. -/
theorem witness_ret :
    ({ State.reset with sp := 16 } : State).sp.val = (15 : Fin 16).val + 1 ∧
    ({ State.reset with sp := 1 } : State).sp.val = (0 : Fin 16).val + 1 ∧ State.reset.sp.val = 0 := by decide

/-- NopOnlyAdvancesPc, JumpSetsPcToImmediate, ReturnPopsIntoPc, JumpV0AddsRegisterZero, SkipOnRegisters: an illegal
opcode of family 0, targets past the last fetchable address (F3, F9, F11), and a low nibble other than 0. -/
theorem witness_targets :
    ((0x0001 : Opcode).toNat / 4096 = 0 ∧ (0x0001 : Opcode) ≠ 0x0000 ∧ (0x0001 : Opcode) ≠ 0x00E0 ∧
      (0x0001 : Opcode) ≠ 0x00EE) ∧
    (0xFFF : BitVec 12).toNat = 4095 ∧
    4094 < ({ State.reset with stack := State.reset.stack.set 15 0xFFF } : State).stack[(15 : Fin 16).val].toNat ∧
    4094 < (0xFFF : BitVec 12).toNat + ((State.reset.setV 0 0xFF).getV 0).toNat ∧ (1 : BitVec 4) ≠ 0 := by decide

/-- SkipOnKey: a pressed key, a released one, and a value above 15 (K12, K13, K16). -/
theorem witness_skipOnKey :
    let s := ((State.reset.setKey 15 true).setV 0 15).setV 1 0x1F
    (∃ k : Key, k.val = (s.getV 0).toNat ∧ s.keys[k.val] = true) ∧
    (¬ ∃ k : Key, k.val = (s.getV 1).toNat ∧ s.keys[k.val] = true) ∧
    ¬ ∃ k : Key, k.val = (s.getV 2).toNat ∧ s.keys[k.val] = true := by decide

/-- AddRegistersWithCarry, SubtractRegistersWithNoBorrow, ShiftsCaptureTheBitShiftedOut: a register that is not `VF`. -/
theorem witness_notVF : (14 : Reg) ≠ VF ∧ (0 : Reg) ≠ VF := by decide

/-- RandomByteReadOnlyByRnd. -/
theorem witness_notRnd :
    (∀ x nn, Instr.addImm 1 2 ≠ .rnd x nn) ∧ ∃ t, exec (.addImm 1 2) State.reset = .next t :=
  ⟨fun _ _ h => (by cases h), _, rfl⟩

/-- StoreDecimalDigits: the last legal address and one more. -/
theorem witness_digits :
    State.reset.memWf ∧ indexAddr (State.reset.setI 4093) + 2 ≤ 4095 ∧ 4095 < indexAddr (State.reset.setI 4094) + 2 :=
  ⟨resetWith_memWf _, by decide, by decide⟩

/-- StoreRegistersAtIndex, LoadRegistersFromIndex: all registers at the last legal address and one more. -/
theorem witness_transfer :
    State.reset.memWf ∧ indexAddr (State.reset.setI 4080) + (15 : Reg).val ≤ 4095 ∧
      4095 < indexAddr (State.reset.setI 4081) + (15 : Reg).val :=
  ⟨resetWith_memWf _, by decide, by decide⟩

/-- FetchSeesStoredRegisters: the last two bytes of memory. -/
theorem witness_fetchSees :
    State.reset.memWf ∧ indexAddr (State.reset.setI 4094) + (1 : Reg).val ≤ 4095 ∧ (1 : Reg).val = (0 : Reg).val + 1 ∧
      (1 : Reg) ≤ 1 :=
  ⟨resetWith_memWf _, by decide, by decide, by decide⟩

/-- CanonicalMemoryIsUnique: canonical memories that list something at both ends. -/
theorem witness_canonical :
    Memory.wf [(0, 1), (4095, 1)] font ∧
      ∀ a, Memory.read [(0, 1), (4095, 1)] font a = Memory.read [(0, 1), (4095, 1)] font a :=
  ⟨by decide, fun _ => rfl⟩

/-- DrawXorsSpriteAndReportsCollision: `N = 0` anywhere, the last byte of memory, and one more. -/
theorem witness_drw_range :
    (0 : BitVec 4).toNat = 0 ∧ indexAddr (State.reset.setI 4094) + (2 : BitVec 4).toNat - 1 ≤ 4095 ∧
      0 < (3 : BitVec 4).toNat ∧ 4095 < indexAddr (State.reset.setI 4094) + (3 : BitVec 4).toNat - 1 := by decide

/-- Glyph 0 drawn at (63, 31): its first pixel covers the last cell; its second covers the first column of that row
where the edge wraps, and no cell where it clips. -/
theorem witness_covers :
    let s := (State.reset.setV 0 63).setV 1 31
    let w := { s with params := { defaultParams with edge := .wrap } }
    SpriteCovers s 0 1 5 63 31 ∧ ¬ SpriteCovers s 0 1 5 0 31 ∧ SpriteCovers w 0 1 5 0 31 := by
  refine ⟨⟨0, 0, by decide, by decide, ⟨by decide, by decide⟩, by decide⟩, ?_,
    ⟨0, 1, by decide, by decide, ⟨by decide, by decide⟩, by decide⟩⟩
  rintro ⟨r, c, -, -, ⟨h, -⟩, -⟩
  have h' : 63 + c = 0 := h
  omega

/-- A draw that collides and one that does not: vector G7 and a draw on the clear display. -/
theorem witness_collision :
    (∃ t, exec (.drw 0 1 1) (State.reset.setDisp (State.reset.disp.invert 0 0)) = .next t ∧
      (State.reset.setDisp (State.reset.disp.invert 0 0)).disp.on 0 0 = true ∧ t.disp.on 0 0 = false) ∧
    ∃ t, exec (.drw 0 1 1) State.reset = .next t ∧ ∀ cx cy, State.reset.disp.on cx cy = false := by
  refine ⟨⟨_, rfl, by decide, by decide +kernel⟩, _, rfl, ?_⟩
  intro cx cy
  simp [State.reset, State.resetWith, CoreState.reset, Display.on]

/-- DrawTwiceRestoresDisplay: glyph 0 at (0, 0), whose coordinates are registers the draw leaves alone. -/
theorem witness_drawTwice :
    (indexAddr State.reset + (5 : BitVec 4).toNat - 1 ≤ 4095) ∧
      ∃ t, exec (.drw 0 1 5) State.reset = .next t ∧ t.getV 0 = State.reset.getV 0 ∧ t.getV 1 = State.reset.getV 1 :=
  ⟨by decide, _, rfl, by decide, by decide +kernel⟩

/-- WrappedSpriteXorsModuloDisplay: the tallest sprite. -/
theorem witness_wrap : (List.replicate 15 (0xFF : Byte)).length ≤ 15 := by decide

/-- KeyWaitHoldsOrStoresLeastKey: no key down, and the last key alone. -/
theorem witness_keyWait :
    (∀ k : Key, State.reset.keys[k.val] = false) ∧ (State.reset.setKey 15 true).keys[(15 : Key).val] = true ∧
      ∀ j : Key, j < 15 → (State.reset.setKey 15 true).keys[j.val] = false := by decide

/-- InstructionsWriteOnlyTheirElements: an instruction that stores. -/
theorem witness_frame : State.reset.memWf ∧ ∃ t, exec (.storeRegs 15) State.reset = .next t :=
  ⟨resetWith_memWf _, _, rfl⟩

/-- StepKeepsInv: a state with the largest `pc` and a full stack of the largest return addresses. -/
theorem witness_inv :
    let s := { State.reset with pc := 4350, sp := 16, stack := Vector.replicate 16 4096 }
    Inv s ∧ ∃ t, step s = .next t := by
  refine ⟨⟨resetWith_memWf _, by decide, fun i _ => ?_⟩, _, rfl⟩
  simp

/-- ReachableStatesMeetR29: the state after reset with a load and a tick queued. -/
theorem witness_reachable : Reachable { State.reset with inbox := [.loadImage [0x12, 0x00], .cpuTick 0] } :=
  .start defaultParams [.loadImage [0x12, 0x00], .cpuTick 0] .cpuTicks

/-- StaleStackEntriesAreUnobservable: two states that differ in the popped entry of an empty stack. -/
theorem witness_stale :
    SameButStaleStack State.reset { State.reset with stack := State.reset.stack.set 0 0x345 } ∧
      ∃ t, step State.reset = .next t :=
  ⟨⟨rfl, fun _ h => absurd h (Nat.not_lt_zero _)⟩, _, rfl⟩

/-- ParkedMachineStaysParked: vector F2. -/
theorem witness_parked : Parked (base 0x1200) :=
  ⟨rfl, rfl, by decide, 0x200, by decide, by decide⟩

/-- ZeroedMemoryRunsAsNoOperations: all the way from 512, one step before the end, and no step at the end. -/
theorem witness_zeroed :
    State.reset.fault = .none ∧ State.reset.inbox = [] ∧ State.reset.idle = .cpuTicks ∧
    State.reset.pc.toNat + 2 * 1792 ≤ 4096 ∧
    (∀ a, State.reset.pc.toNat ≤ a → a < State.reset.pc.toNat + 2 * 1792 → State.reset.byteAt a = 0) ∧
    ({ State.reset with pc := 4094 } : State).pc.toNat + 2 * 1 = 4096 ∧
    ({ State.reset with pc := 4096 } : State).pc.toNat + 2 * 0 = 4096 := by
  refine ⟨rfl, rfl, rfl, by decide, fun a h _ => ?_, by decide, by decide⟩
  have h' : ¬ a < 80 := fun hlt => absurd (show 512 ≤ a from h) (by omega)
  show unlistedByte font a = 0
  simp [unlistedByte, h']

/-- EventsReadOnlyTheTwelveElements: two states that differ in every field on the host's side. -/
theorem witness_twelve :
    let s' := { State.reset with rnd := 1, draws := 2, inbox := [.timerTick], idle := .free }
    s'.toCoreState = State.reset.toCoreState ∧ s'.params = State.reset.params ∧ s' ≠ State.reset :=
  ⟨rfl, rfl, fun h => by cases congrArg State.draws h⟩

/-- QueuedEventsAreTakenInOrder: a load, a tick of each kind, and an event behind them. -/
theorem witness_queued :
    ({ State.reset with inbox := [.loadImage [0, 0xE0], .cpuTick 3, .timerTick, .reset] } : State).inbox =
      [.loadImage [0, 0xE0], .cpuTick 3, .timerTick] ++ [.reset] := rfl

/-- IdleHostGoesOnWithoutEnd: each clause; the repeated events are timer ticks, then timer ticks and a key pressed. -/
theorem witness_idle :
    State.reset.inbox = [] ∧ State.reset.idle = .cpuTicks ∧ ({ State.reset with idle := .free } : State).idle = .free ∧
    ({ State.reset with idle := .repeats .timerTick [] } : State).idle = .repeats .timerTick [] ∧
    ({ State.reset with idle := .repeats .timerTick [.keySet 5 true] } : State).idle =
      .repeats .timerTick [.keySet 5 true] := by decide

end Sys2Proof.Tests
end

section
/-! PROOFS. The events and the host (R6, R8, R59). No event reads or writes what the host holds to choose the next one:
its count of free values, its queue, and what it does once the queue is empty. So a run over queued events is the fold
of `afterEvent` over them, whatever the host holds meanwhile. -/

namespace Sys2Proof.Machine

/-! ### The host's side of the choice of events -/

/-- The machine of `s` beside the host of `h`: the count of free values, the queue and the idle behaviour are those of
`h`; the twelve elements, the parameters and the sampled `rnd` are those of `s`. -/
def State.withHost (s h : State) : State := { s with draws := h.draws, inbox := h.inbox, idle := h.idle }

section
variable (s h : State)

@[simp] theorem lowestKey_withHost : lowestKey (s.withHost h) = lowestKey s := rfl
@[simp] theorem fetch_withHost : fetch (s.withHost h) = fetch s := rfl
@[simp] theorem stopped_withHost : (s.withHost h).stopped = s.stopped := rfl
@[simp] theorem raise_withHost (c : FaultCode) : (s.withHost h).raise c = (s.raise c).withHost h := rfl

/-! The state operations that branch commute with `withHost`; the others do so by definition. -/

theorem skipIf_withHost (c : Bool) : (s.withHost h).skipIf c = (s.skipIf c).withHost h := by
  cases c <;> rfl

theorem memWrite_withHost (a : Nat) (bytes : List Byte) :
    memWrite (s.withHost h) a bytes = (memWrite s a bytes).map (·.withHost h) := by
  unfold memWrite
  split <;> rfl

theorem push_withHost (v : Word) : (s.withHost h).push v = (s.push v).map (·.withHost h) := by
  rcases push_cases s v with ⟨hs, e⟩ | ⟨hs, e⟩
  · rw [e]
    exact dif_pos hs
  · rw [e]
    exact dif_neg (fun hlt : s.sp.val < 16 => by omega)

theorem pop_withHost : (s.withHost h).pop = s.pop.map (fun p => (p.1, p.2.withHost h)) := by
  rcases pop_cases s with ⟨hs, hlt, e⟩ | ⟨hs, e⟩
  · rw [e]
    exact dif_pos hs
  · rw [e]
    exact dif_neg (fun hlt : 0 < s.sp.val => by omega)

end

/-! ### Instructions and events leave the host alone -/

/-- From `s`, `f` answers a next state, and the same one beside every other host, which it leaves as it was. -/
def IgnoresHost (f : State → Host.Outcome State Fault Refusal) (s : State) : Prop :=
  ∃ t, f s = .next t ∧ ∀ h, f (s.withHost h) = .next (t.withHost h)

/-- The commit rule ignores the host where what is committed does. -/
theorem ignoresHost_commit {r : State → Except FaultCode State} {s : State}
    (hr : ∀ h, r (s.withHost h) = (r s).map (·.withHost h)) : IgnoresHost (fun s => commit s (r s)) s := by
  cases hs : r s with
  | ok t => exact ⟨t, by simp [hs], fun h => by simp [hr, hs, Except.map]⟩
  | error c => exact ⟨s.raise c, by simp [hs], fun h => by simp [hr, hs, Except.map]⟩

/-- What is done only while the machine is not stopped ignores the host where it does when done at all (R113). -/
theorem ignoresHost_unlessStopped {f : State → Host.Outcome State Fault Refusal} {s : State} (hf : IgnoresHost f s) :
    IgnoresHost (fun s => if s.stopped then .next s else f s) s := by
  obtain ⟨t, ht, hw⟩ := hf
  cases hs : s.stopped with
  | true => exact ⟨s, by simp [hs], fun h => by simp [hs]⟩
  | false => exact ⟨t, by simp [hs, ht], fun h => by simp [hs, hw]⟩

theorem ignoresHost_exec_ret (s : State) : IgnoresHost (exec .ret) s :=
  ignoresHost_commit fun h => by
    show Except.map _ (State.pop (s.advance.withHost h)) = _
    rw [pop_withHost]
    cases s.advance.pop <;> rfl

theorem ignoresHost_exec_call (nnn : BitVec 12) (s : State) : IgnoresHost (exec (.call nnn)) s :=
  ignoresHost_commit fun h => by
    show Except.map _ ((s.advance.withHost h).push s.advance.pc) = _
    rw [push_withHost]
    cases s.advance.push s.advance.pc <;> rfl

theorem ignoresHost_exec_drw (x y : Reg) (n : BitVec 4) (s : State) : IgnoresHost (exec (.drw x y n)) s :=
  ignoresHost_commit fun h => by
    show Except.map _ (memRead s (indexAddr s) n.toNat) = _
    cases memRead s (indexAddr s) n.toNat <;> rfl

theorem ignoresHost_exec_loadRegs (x : Reg) (s : State) : IgnoresHost (exec (.loadRegs x)) s :=
  ignoresHost_commit fun h => by
    show Except.map _ (memRead s (indexAddr s) (x.val + 1)) = _
    cases memRead s (indexAddr s) (x.val + 1) <;> rfl

theorem ignoresHost_exec_ldVxK (x : Reg) (s : State) : IgnoresHost (exec (.ldVxK x)) s := by
  show IgnoresHost (execLdVxK x) s
  unfold IgnoresHost execLdVxK
  simp only [lowestKey_withHost]
  cases lowestKey s with
  | none => exact ⟨_, rfl, fun _ => rfl⟩
  | some k => exact ⟨_, rfl, fun _ => rfl⟩

/-- An instruction reads of the host's side at most the sampled `rnd`, and writes none of it. -/
theorem ignoresHost_exec (i : Instr) (s : State) : IgnoresHost (exec i) s := by
  cases i with
  | ret => exact ignoresHost_exec_ret s
  | call nnn => exact ignoresHost_exec_call nnn s
  | drw x y n => exact ignoresHost_exec_drw x y n s
  | ldVxK x => exact ignoresHost_exec_ldVxK x s
  | ldB | storeRegs => exact ignoresHost_commit fun h => memWrite_withHost s.advance h _ _
  | loadRegs x => exact ignoresHost_exec_loadRegs x s
  | seImm | sneImm | seReg | sneReg | skp | sknp =>
    exact ⟨_, rfl, fun h => congrArg Host.Outcome.next (skipIf_withHost s.advance h _)⟩
  | nop | cls | jp | ldImm | addImm | ldReg | orReg | andReg | xorReg | addReg | subReg | shr | subnReg | shl
  | ldI | jpV0 | rnd | ldVxDt | ldDtVx | ldStVx | addI | ldF =>
    exact ⟨_, rfl, fun _ => rfl⟩

theorem ignoresHost_cpuTick (r : Byte) (s : State) : IgnoresHost (cpuTick r) s := by
  refine ignoresHost_unlessStopped ?_
  unfold IgnoresHost
  simp only [fetch_withHost]
  cases fetch s with
  | error c => exact ⟨_, rfl, fun _ => rfl⟩
  | ok op =>
    cases hd : decode op with
    | error e => exact ⟨s.raise .badop, by simp [hd], fun h => by simp [hd]⟩
    | ok i =>
      obtain ⟨t, ht, hw⟩ := ignoresHost_exec i { s with rnd := r }
      exact ⟨t, by simp [hd, ht], fun h => by
        simpa [hd] using show exec i { s.withHost h with rnd := r } = _ from hw h⟩

theorem ignoresHost_loadImage (bytes : List Byte) (s : State) : IgnoresHost (handleLoadImage bytes) s :=
  ignoresHost_unlessStopped (ignoresHost_commit fun h => by split <;> rfl)

/-- An event reads and writes nothing of what the host holds but the sampled `rnd` (R59). -/
theorem ignoresHost_handleEvent (e : HostEvent) (s : State) : IgnoresHost (handleEvent e) s := by
  cases e with
  | reset => exact ⟨_, rfl, fun _ => rfl⟩
  | loadImage bytes => exact ignoresHost_loadImage bytes s
  | keySet => exact ignoresHost_unlessStopped ⟨_, rfl, fun _ => rfl⟩
  | cpuTick r => exact ignoresHost_cpuTick r s
  | timerTick => exact ignoresHost_unlessStopped ⟨_, rfl, fun _ => rfl⟩
  | displayRead => exact ⟨_, rfl, fun _ => rfl⟩

/-- An event beside any host leaves what `afterEvent` says, and that host. -/
theorem handleEvent_withHost (e : HostEvent) (s h : State) :
    handleEvent e (s.withHost h) = .next ((afterEvent s e).withHost h) := by
  obtain ⟨t, ht, hw⟩ := ignoresHost_handleEvent e s
  rw [hw h, afterEvent, ht]

/-! ### Runs -/

/-- A run begins with a step. -/
theorem run_succ_of_step (k : Nat) {s t : State} (hs : step s = .next t) :
    Host.Core.run Sys2Proof.core (k + 1) s = Host.Core.run Sys2Proof.core k t := by
  have hcore : Sys2Proof.core.step s = .next t := hs
  simp only [Host.Core.run, hcore]

/-- The steps a run begins with take the events queued first, one a step, and leave the rest queued. -/
theorem run_queued (n : Nat) (es rest : List HostEvent) (s : State) {h : State} (hq : h.inbox = es ++ rest) :
    Host.Core.run Sys2Proof.core (es.length + n) (s.withHost h) =
      Host.Core.run Sys2Proof.core n ((es.foldl afterEvent s).withHost { h with inbox := rest }) := by
  induction es generalizing s h with
  | nil =>
    rw [List.nil_append] at hq
    subst hq
    rw [List.length_nil, Nat.zero_add]
    rfl
  | cons e es ih =>
    have hstep : step (s.withHost h) = .next ((afterEvent s e).withHost { h with inbox := es ++ rest }) :=
      (step_of_inbox_cons (s := s.withHost h) hq).trans (handleEvent_withHost e s { h with inbox := es ++ rest })
    rw [List.length_cons, Nat.succ_add, run_succ_of_step _ hstep]
    exact ih (afterEvent s e) rfl

/-- With nothing queued, the steps a run begins with take one round of a repeated sequence, in order, and come back to
the same host. -/
theorem run_repeats_round (n : Nat) (s : State) {h : State} {e : HostEvent} {others : List HostEvent}
    (hq : h.inbox = []) (hi : h.idle = .repeats e others) :
    Host.Core.run Sys2Proof.core (others.length + 1 + n) (s.withHost h) =
      Host.Core.run Sys2Proof.core n (((e :: others).foldl afterEvent s).withHost h) := by
  have hstep : step (s.withHost h) = .next ((afterEvent s e).withHost { h with inbox := others }) :=
    (step_of_repeats (s := s.withHost h) hq hi).trans (handleEvent_withHost e s { h with inbox := others })
  have hothers := run_queued n others [] (afterEvent s e) (h := { h with inbox := others }) (List.append_nil _).symm
  rw [Nat.add_right_comm, run_succ_of_step _ hstep, hothers, ← hq]
  rfl

/-- `k` rounds of a repeated sequence. -/
theorem run_repeats (k : Nat) (s : State) {h : State} {e : HostEvent} {others : List HostEvent} (hq : h.inbox = [])
    (hi : h.idle = .repeats e others) : Host.Core.run Sys2Proof.core (k * (others.length + 1)) (s.withHost h) =
      .next (((List.replicate k (e :: others)).flatten.foldl afterEvent s).withHost h) := by
  induction k generalizing s with
  | zero => rw [Nat.zero_mul]; rfl
  | succ k ih =>
    rw [Nat.succ_mul, Nat.add_comm, run_repeats_round _ s hq hi, ih, List.replicate_succ, List.flatten_cons,
      List.foldl_append]

/-- A step with an empty inbox, the host issuing free events, handles a free event. -/
theorem step_of_free {s : State} (hq : s.inbox = []) (hi : s.idle = .free) :
    step s = handleEvent (Config.freeEvent s.draws) { s with draws := s.draws + 1 } := by
  rw [step_eq, takeNext, hq, hi]

/-- Settles O58, by induction on the queued events: each is taken beside the host that holds the later ones. -/
theorem queuedEventsAreTakenInOrder : Obligations.QueuedEventsAreTakenInOrder := by
  intro es rest s hq
  exact ⟨_, run_queued 0 es rest s hq, rfl, rfl⟩

/-- Settles O59: a repeated sequence by induction on its rounds, each a run over the sequence queued; a free host and
one that issues CPU ticks by what a step of theirs is. -/
theorem idleHostGoesOnWithoutEnd : Obligations.IdleHostGoesOnWithoutEnd := by
  intro s hq
  refine ⟨fun e others hi k => ?_, step_of_free hq, step_of_cpuTicks hq⟩
  exact ⟨_, run_repeats k s hq hi, hq, rfl, rfl⟩

end Sys2Proof.Machine
end

section
/-! PROOFS. The frame of each state operation (R11, R34, R57, R61, R62, R111), each said once, and from them the frame of
every instruction (R13 to R25). -/

namespace Sys2Proof.Machine

/-! ### Frames compose -/

theorem UnchangedExcept.mono {w w' : Elem → Prop} {s t : State} (h : UnchangedExcept w s t) (hw : ∀ e, w e → w' e) :
    UnchangedExcept w' s t :=
  fun e he => h e (fun hwe => he (hw e hwe))

theorem SameElem.trans {s t u : State} {e : Elem} (hst : SameElem s t e) (htu : SameElem t u e) : SameElem s u e := by
  cases e <;> exact Eq.trans htu hst

/-- One update after another leaves what both leave. -/
theorem UnchangedExcept.trans {w w' : Elem → Prop} {s t u : State} (hst : UnchangedExcept w s t)
    (htu : UnchangedExcept w' t u) : UnchangedExcept (fun e => w e ∨ w' e) s u :=
  fun e he => (hst e (fun hw => he (.inl hw))).trans (htu e (fun hw => he (.inr hw)))

/-! ### The frame of each state operation -/

/-- Writing one address leaves what every other one reads as, in any memory. -/
theorem Memory.read_write_of_ne {f : Config.Font} (m : Memory) {a b : Nat} (v : Byte) (hba : b ≠ a) :
    (m.write f a v).read f b = m.read f b := by
  induction m with
  | nil =>
    unfold write
    split <;> simp [read, hba]
  | cons c m ih =>
    obtain ⟨d, w⟩ := c
    unfold write
    split_ifs with had hv hade hv
    · rfl
    · rw [read, if_neg hba]
    · rw [read, if_neg (hade ▸ hba)]
    · rw [read, if_neg hba, read, if_neg (hade ▸ hba)]
    · simp only [read, ih]

/-- A range of writes leaves what every address outside it reads as, in any memory. -/
theorem Memory.read_writeRange_of_outside {f : Config.Font} (m : Memory) (a : Nat) (bytes : List Byte) {b : Nat}
    (hb : b < a ∨ a + bytes.length ≤ b) : (m.writeRange f a bytes).read f b = m.read f b := by
  induction bytes generalizing m a with
  | nil => rfl
  | cons v vs ih =>
    rw [List.length_cons] at hb
    rw [writeRange, ih _ _ (by omega), read_write_of_ne m v (by omega)]

section
variable (s : State)

theorem onlyWrites_setV (x : Reg) (v : Byte) : OnlyWrites [.V x] s (s.setV x v) := by
  intro e he
  cases e with
  | V i => exact (State.getV_setV s x i v).trans (if_neg (fun hi => he (by simp [hi])))
  | _ => rfl

theorem onlyWrites_setI (v : Word) : OnlyWrites [.I] s (s.setI v) := by
  intro e he
  cases e with
  | I => exact absurd (List.mem_singleton_self _) he
  | _ => rfl

theorem onlyWrites_setDt (v : Byte) : OnlyWrites [.dt] s (s.setDt v) := by
  intro e he
  cases e with
  | dt => exact absurd (List.mem_singleton_self _) he
  | _ => rfl

theorem onlyWrites_setSt (v : Byte) : OnlyWrites [.st] s (s.setSt v) := by
  intro e he
  cases e with
  | st => exact absurd (List.mem_singleton_self _) he
  | _ => rfl

theorem onlyWrites_setPc (v : Word) : OnlyWrites [.pc] s (s.setPc v) := by
  intro e he
  cases e with
  | pc => exact absurd (List.mem_singleton_self _) he
  | _ => rfl

theorem onlyWrites_raise (c : FaultCode) : OnlyWrites [.fault] s (s.raise c) := by
  intro e he
  cases e with
  | fault => exact absurd (List.mem_singleton_self _) he
  | _ => rfl

theorem onlyWrites_hold : OnlyWrites [.waiting] s s.hold := by
  intro e he
  cases e with
  | waiting => exact absurd (List.mem_singleton_self _) he
  | _ => rfl

theorem onlyWrites_advance : OnlyWrites [.pc, .waiting] s s.advance := by
  intro e he
  cases e with
  | pc | waiting => simp at he
  | _ => rfl

theorem onlyWrites_skipIf (c : Bool) : OnlyWrites [.pc] s (s.skipIf c) := by
  cases c with
  | true => exact onlyWrites_setPc s _
  | false => exact fun e _ => by cases e <;> rfl

theorem onlyWrites_sp (n : Fin 17) : OnlyWrites [.sp] s { s with sp := n } := by
  intro e he
  cases e with
  | sp => exact absurd (List.mem_singleton_self _) he
  | _ => rfl

theorem unchangedExcept_setDisp (d : Display) : UnchangedExcept (fun e => ∃ x y, e = .cell x y) s (s.setDisp d) := by
  intro e he
  cases e with
  | cell x y => exact absurd ⟨x, y, rfl⟩ he
  | _ => rfl

theorem unchangedExcept_setStack (k : Nat) (hk : k < 16) (v : Word) :
    UnchangedExcept (fun e => ∃ i : Fin 16, i.val = k ∧ e = .stack i) s { s with stack := s.stack.set k v } := by
  intro e he
  cases e with
  | stack i => exact Vector.getElem_set_ne hk i.isLt (fun hki => he ⟨i, hki.symm, rfl⟩)
  | _ => rfl

theorem unchangedExcept_storeBytes (a : Nat) (bytes : List Byte) :
    UnchangedExcept (fun e => ∃ k, k < bytes.length ∧ e = .mem (a + k)) s (s.storeBytes a bytes) := by
  intro e he
  cases e with
  | mem b =>
    refine Memory.read_writeRange_of_outside s.mem a bytes ?_
    by_contra hb
    exact he ⟨b - a, by omega, congrArg Elem.mem (by omega)⟩
  | _ => rfl

theorem unchangedExcept_setVs (bytes : List Byte) :
    UnchangedExcept (fun e => ∃ i : Reg, i.val < bytes.length ∧ e = .V i) s (s.setVs bytes) := by
  intro e he
  cases e with
  | V i =>
    have hi : bytes.length ≤ i.val := Nat.le_of_not_lt (fun hlt => he ⟨i, hlt, rfl⟩)
    show (s.setVs bytes).getV i = s.getV i
    rw [State.getV_setVs, List.getElem?_eq_none hi, Option.getD_none]
  | _ => rfl

end

/-! ### The frame of an instruction -/

/-- An instruction that completes writes `pc` and `waiting` and what is written after the advance (R56, R57). -/
theorem unchangedExcept_of_advance {w w' : Elem → Prop} {s t : State} (ht : UnchangedExcept w s.advance t)
    (hw : ∀ e, e ∈ [.pc, .waiting] ∨ w e → w' e) : UnchangedExcept w' s t :=
  ((onlyWrites_advance s).trans ht).mono hw

/-- The frame of every instruction, from any state. -/
theorem exec_unchangedExcept (i : Instr) {s t : State} (h : exec i s = .next t) :
    UnchangedExcept (mayWrite s i) s t := by
  cases i with
  | nop =>
    cases h
    exact onlyWrites_advance s
  | cls =>
    cases h
    exact unchangedExcept_of_advance (unchangedExcept_setDisp _ _) (fun _ he => he)
  | ret =>
    rcases exec_ret_cases s with ⟨_, _, e⟩ | ⟨-, e⟩ <;> (rw [e] at h; cases h)
    · refine unchangedExcept_of_advance ((onlyWrites_sp _ _).trans (onlyWrites_setPc _ _)) ?_
      grind [mayWrite]
    · exact (onlyWrites_raise s _).mono (by simp [mayWrite])
  | call nnn =>
    rcases exec_call_cases nnn s with ⟨hsp, e⟩ | ⟨-, e⟩ <;> (rw [e] at h; cases h)
    · refine unchangedExcept_of_advance
        (((unchangedExcept_setStack _ _ hsp _).trans (onlyWrites_sp _ _)).trans (onlyWrites_setPc _ _)) ?_
      grind [mayWrite]
    · exact (onlyWrites_raise s _).mono (by simp [mayWrite])
  | jp | jpV0 =>
    cases h
    exact unchangedExcept_of_advance (onlyWrites_setPc _ _) (by grind [mayWrite])
  | seImm | sneImm | seReg | sneReg | skp | sknp =>
    cases h
    exact unchangedExcept_of_advance (onlyWrites_skipIf _ _) (by grind [mayWrite])
  | ldImm | addImm | ldReg | orReg | andReg | xorReg | rnd | ldVxDt =>
    cases h
    exact unchangedExcept_of_advance (onlyWrites_setV _ _ _) (by grind [mayWrite])
  | addReg | subReg | subnReg | shr | shl =>
    cases h
    exact unchangedExcept_of_advance ((onlyWrites_setV _ _ _).trans (onlyWrites_setV _ _ _)) (by grind [mayWrite])
  | ldI | addI | ldF =>
    cases h
    exact unchangedExcept_of_advance (onlyWrites_setI _ _) (by grind [mayWrite])
  | ldDtVx =>
    cases h
    exact unchangedExcept_of_advance (onlyWrites_setDt _ _) (by grind [mayWrite])
  | ldStVx =>
    cases h
    exact unchangedExcept_of_advance (onlyWrites_setSt _ _) (by grind [mayWrite])
  | drw x y n =>
    rcases exec_drw_cases x y n s with ⟨-, e⟩ | ⟨-, e⟩ <;> (rw [e] at h; cases h)
    · refine unchangedExcept_of_advance ((unchangedExcept_setDisp _ _).trans (onlyWrites_setV _ _ _)) ?_
      grind [mayWrite]
    · exact (onlyWrites_raise s _).mono (by simp [mayWrite])
  | ldVxK x =>
    rcases exec_ldVxK_cases x s with ⟨-, e⟩ | ⟨k, -, e⟩ <;> (rw [e] at h; cases h)
    · exact (onlyWrites_hold s).mono (by simp [mayWrite])
    · exact unchangedExcept_of_advance (onlyWrites_setV _ _ _) (by grind [mayWrite])
  | ldB x =>
    rcases exec_ldB_cases x s with ⟨-, e⟩ | ⟨-, e⟩ <;> (rw [e] at h; cases h)
    · exact unchangedExcept_of_advance (unchangedExcept_storeBytes _ _ _) (by grind [mayWrite, length_decimalDigits])
    · exact (onlyWrites_raise s _).mono (by simp [mayWrite])
  | storeRegs x =>
    rcases exec_storeRegs_cases x s with ⟨-, e⟩ | ⟨-, e⟩ <;> (rw [e] at h; cases h)
    · exact unchangedExcept_of_advance (unchangedExcept_storeBytes _ _ _) (by grind [mayWrite, length_regsUpTo])
    · exact (onlyWrites_raise s _).mono (by simp [mayWrite])
  | loadRegs x =>
    rcases exec_loadRegs_cases x s with ⟨-, e⟩ | ⟨-, e⟩ <;> (rw [e] at h; cases h)
    · exact unchangedExcept_of_advance (unchangedExcept_setVs _ _) (by grind [mayWrite, State.length_bytesAt])
    · exact (onlyWrites_raise s _).mono (by simp [mayWrite])

/-- Settles O48, instruction by instruction, from the frames of the operations it is made of. -/
theorem instructionsWriteOnlyTheirElements : Obligations.InstructionsWriteOnlyTheirElements :=
  fun i _ _ _ h => exec_unchangedExcept i h

end Sys2Proof.Machine
end

section
/-! PROOFS. The state after reset (R27, R28), the uniqueness of the canonical form of memory (R23, R31), and the invariant
of R29, which the state after reset meets and every step keeps. -/

namespace Sys2Proof.Machine

/-! ### After reset -/

theorem byteAt_resetWith (p : Config.Params) (a : Nat) : (State.resetWith p).byteAt a = unlistedByte p.font a := rfl

theorem atReset_resetWith (p : Config.Params) : AtReset (State.resetWith p) := by
  refine ⟨fun a ha => ?_, fun a ha _ => ?_, rfl, fun i => ?_, rfl, fun i => ?_, rfl, rfl, rfl, fun k => ?_,
    fun x y => ?_, rfl, rfl⟩
  · exact (byteAt_resetWith p a).trans (dif_pos ha)
  · exact (byteAt_resetWith p a).trans (dif_neg (by omega))
  · exact Vector.getElem_replicate i.isLt
  · exact Vector.getElem_replicate i.isLt
  · exact Vector.getElem_replicate k.isLt
  · simp [State.resetWith, CoreState.reset, Display.on]

/-- Settles O12: the values after reset with any parameters, hence with the default ones. -/
theorem resetStateHasSpecValues : Obligations.ResetStateHasSpecValues :=
  ⟨fun p => ⟨atReset_resetWith p, rfl⟩, atReset_resetWith defaultParams, rfl, rfl⟩

/-! ### The canonical form of memory is unique -/

section
variable {f : Config.Font}

/-- The first cell of a canonical memory differs from its content after reset. -/
theorem Memory.head_ne_unlisted {b : Nat} {w : Byte} {m : Memory} (h : Memory.wf ((b, w) :: m) f) :
    w ≠ unlistedByte f b :=
  (h.2 (b, w) (List.mem_cons_self ..)).2

theorem Memory.read_head (b : Nat) (w : Byte) (m : Memory) : Memory.read ((b, w) :: m) f b = w := if_pos rfl

/-- Behind its first cell a canonical memory lists only higher addresses. -/
theorem Memory.read_tail_at_head {b : Nat} {w : Byte} {m : Memory} (h : Memory.wf ((b, w) :: m) f) :
    Memory.read m f b = unlistedByte f b :=
  read_of_not_listed (fun _ hc => Nat.ne_of_gt (List.rel_of_pairwise_cons h.1 hc))

/-- Canonical memories that read the same list no address below the first of the other. -/
theorem Memory.head_le_of_read_eq {b d : Nat} {v w : Byte} {m n : Memory} (hm : Memory.wf ((b, v) :: m) f)
    (hn : Memory.wf ((d, w) :: n) f) (h : ∀ a, Memory.read ((b, v) :: m) f a = Memory.read ((d, w) :: n) f a) :
    d ≤ b := by
  by_contra hlt
  exact head_ne_unlisted hm (by rw [← read_below hn (Nat.lt_of_not_le hlt), ← h b, read_head])

/-- Memories that read the same and begin with the same cell read the same behind it. -/
theorem Memory.read_tail_eq {b : Nat} {v : Byte} {m n : Memory} (hm : Memory.wf ((b, v) :: m) f)
    (hn : Memory.wf ((b, v) :: n) f) (h : ∀ a, Memory.read ((b, v) :: m) f a = Memory.read ((b, v) :: n) f a)
    (a : Nat) : m.read f a = n.read f a := by
  by_cases hab : a = b
  · rw [hab, read_tail_at_head hm, read_tail_at_head hn]
  · simpa only [read, if_neg hab] using h a

/-- Settles O41, by induction on both memories: the first cells are the same, since each lists the least address that
reads otherwise than after reset. -/
theorem canonicalMemoryIsUnique : Obligations.CanonicalMemoryIsUnique := by
  intro f m
  induction m with
  | nil =>
    intro n _ hn h
    cases n with
    | nil => rfl
    | cons c n => exact absurd ((Memory.read_head ..).symm.trans (h c.1).symm) (Memory.head_ne_unlisted hn)
  | cons c m ih =>
    obtain ⟨b, v⟩ := c
    intro n hm hn h
    cases n with
    | nil => exact absurd ((Memory.read_head ..).symm.trans (h b)) (Memory.head_ne_unlisted hm)
    | cons d n =>
      obtain ⟨d, w⟩ := d
      obtain rfl : b = d :=
        Nat.le_antisymm (Memory.head_le_of_read_eq hn hm (fun a => (h a).symm)) (Memory.head_le_of_read_eq hm hn h)
      obtain rfl : v = w := by rw [← Memory.read_head (f := f) b v m, h b, Memory.read_head]
      rw [ih n (Memory.wf_tail hm) (Memory.wf_tail hn) (Memory.read_tail_eq hm hn h)]

end

/-! ### The invariant -/

theorem inv_resetWith (p : Config.Params) : Inv (State.resetWith p) :=
  ⟨resetWith_memWf p, (by decide : (512 : Word).toNat ≤ 4350), fun _ hi => absurd hi (Nat.not_lt_zero _)⟩

/-- Settles O49. -/
theorem resetMeetsInv : Obligations.ResetMeetsInv := inv_resetWith defaultParams

/-- The invariant reads memory, the font table, `pc` and the stack alone. -/
theorem Inv.of_pc_le {s t : State} (hs : Inv s) (hmem : t.mem = s.mem) (hparams : t.params = s.params)
    (hstack : t.stack = s.stack) (hsp : t.sp = s.sp) (hpc : t.pc.toNat ≤ 4350) : Inv t := by
  obtain ⟨hwf, -, hentries⟩ := hs
  refine ⟨?_, hpc, ?_⟩
  · rw [State.memWf, hmem, hparams]
    exact hwf
  · rw [StackInv, hstack, hsp]
    exact hentries

theorem Inv.of_pc_eq {s t : State} (hs : Inv s) (hmem : t.mem = s.mem) (hparams : t.params = s.params)
    (hstack : t.stack = s.stack) (hsp : t.sp = s.sp) (hpc : t.pc = s.pc) : Inv t := by
  have ⟨_, hle, _⟩ := hs
  exact hs.of_pc_le hmem hparams hstack hsp (hpc ▸ hle)

section
variable {s : State}

theorem Inv.raise (hs : Inv s) (c : FaultCode) : Inv (s.raise c) := hs.of_pc_eq rfl rfl rfl rfl rfl

theorem Inv.storeBytes (hs : Inv s) {a : Nat} {bytes : List Byte} (ha : bytes = [] ∨ a + bytes.length ≤ 4096) :
    Inv (s.storeBytes a bytes) := by
  obtain ⟨hwf, hpc, hentries⟩ := hs
  exact ⟨State.memWf_storeBytes hwf ha, hpc, hentries⟩

/-- A jump to at most 4350, from whatever `pc`. -/
theorem Inv.setPc (hs : Inv s) {v : Word} (hv : v.toNat ≤ 4350) : Inv (s.setPc v) := hs.of_pc_le rfl rfl rfl rfl hv

/-- Retreating the cursor leaves fewer entries valid. -/
theorem Inv.pop (hs : Inv s) {n : Fin 17} (hn : n.val ≤ s.sp.val) : Inv { s with sp := n } := by
  obtain ⟨hwf, hpc, hentries⟩ := hs
  exact ⟨hwf, hpc, fun i hi => hentries i (Nat.lt_of_lt_of_le hi hn)⟩

/-- A return address pushed at the cursor is one more valid entry. -/
theorem Inv.push (hs : Inv s) (hsp : s.sp.val < 16) {v : Word} (hv : v.toNat ≤ 4096) :
    Inv { s with stack := s.stack.set s.sp.val v, sp := ⟨s.sp.val + 1, Nat.succ_lt_succ hsp⟩ } := by
  obtain ⟨hwf, hpc, hentries⟩ := hs
  refine ⟨hwf, hpc, fun i hi => ?_⟩
  show ((s.stack.set s.sp.val v)[i.val]).toNat ≤ 4096
  rw [Vector.getElem_set]
  split
  · exact hv
  · exact hentries i (by have : i.val < s.sp.val + 1 := hi; omega)

/-- Where a fetch succeeds, the instruction behind the one at `pc` is at most at 4096 (R15). -/
theorem toNat_pc_add_two (hpc : s.pc.toNat ≤ 4094) : (s.pc + 2).toNat = s.pc.toNat + 2 := by
  rw [BitVec.toNat_add]
  exact Nat.mod_eq_of_lt (by show s.pc.toNat + 2 < 65536; omega)

theorem Inv.advance (hs : Inv s) (hpc : s.pc.toNat ≤ 4094) : Inv s.advance := by
  refine hs.of_pc_le rfl rfl rfl rfl ?_
  rw [State.advance_pc, toNat_pc_add_two hpc]
  omega

theorem Inv.skipIf_advance (hs : Inv s) (hpc : s.pc.toNat ≤ 4094) (c : Bool) : Inv (s.advance.skipIf c) := by
  have hadv := hs.advance hpc
  cases c with
  | false => exact hadv
  | true =>
    refine hadv.setPc ?_
    have h2 := toNat_pc_add_two hpc
    rw [State.advance_pc]
    bv_omega

end

/-- An instruction where the fetch succeeds keeps the invariant. -/
theorem inv_exec {i : Instr} {s t : State} (hs : Inv s) (hpc : s.pc.toNat ≤ 4094) (h : exec i s = .next t) : Inv t := by
  have hadv := hs.advance hpc
  cases i with
  | ret =>
    rcases exec_ret_cases s with ⟨hsp, hlt, e⟩ | ⟨-, e⟩ <;> (rw [e] at h; cases h)
    · obtain ⟨-, -, hentries⟩ := hs
      have htop : (s.stack[s.sp.val - 1]).toNat ≤ 4096 := hentries ⟨s.sp.val - 1, hlt⟩ (Nat.sub_one_lt_of_lt hsp)
      exact (hadv.pop (Nat.sub_le ..)).setPc (by omega)
    · exact hs.raise _
  | call nnn =>
    rcases exec_call_cases nnn s with ⟨hsp, e⟩ | ⟨-, e⟩ <;> (rw [e] at h; cases h)
    · have hret := toNat_pc_add_two hpc
      exact (hadv.push hsp (v := s.pc + 2) (by omega)).setPc (by have := nnn.isLt; rw [toNat_addrOf]; omega)
    · exact hs.raise _
  | jp nnn =>
    cases h
    exact hadv.setPc (by have := nnn.isLt; rw [toNat_addrOf]; omega)
  | jpV0 nnn =>
    cases h
    exact hadv.setPc (by have := nnn.isLt; have := (s.getV 0).isLt; rw [toNat_jumpV0Target]; omega)
  | seImm | sneImm | seReg | sneReg | skp | sknp =>
    cases h
    exact hs.skipIf_advance hpc _
  | ldB x =>
    rcases exec_ldB_cases x s with ⟨hr, e⟩ | ⟨-, e⟩ <;> (rw [e] at h; cases h)
    · exact hadv.storeBytes (.inr hr)
    · exact hs.raise _
  | storeRegs x =>
    rcases exec_storeRegs_cases x s with ⟨hr, e⟩ | ⟨-, e⟩ <;> (rw [e] at h; cases h)
    · exact hadv.storeBytes (.inr (by rw [length_regsUpTo]; exact hr))
    · exact hs.raise _
  | drw x y n =>
    rcases exec_drw_cases x y n s with ⟨-, e⟩ | ⟨-, e⟩ <;> (rw [e] at h; cases h)
    · exact hadv.of_pc_eq rfl rfl rfl rfl rfl
    · exact hs.raise _
  | ldVxK x =>
    rcases exec_ldVxK_cases x s with ⟨-, e⟩ | ⟨k, -, e⟩ <;> (rw [e] at h; cases h)
    · exact hs.of_pc_eq rfl rfl rfl rfl rfl
    · exact hadv.of_pc_eq rfl rfl rfl rfl rfl
  | loadRegs x =>
    rcases exec_loadRegs_cases x s with ⟨-, e⟩ | ⟨-, e⟩ <;> (rw [e] at h; cases h)
    · exact hadv.of_pc_eq rfl rfl rfl rfl rfl
    · exact hs.raise _
  | nop | cls | ldImm | addImm | ldReg | orReg | andReg | xorReg | addReg | subReg | shr | subnReg | shl | ldI | rnd
  | ldVxDt | ldDtVx | ldStVx | addI | ldF =>
    cases h
    exact hadv.of_pc_eq rfl rfl rfl rfl rfl

theorem inv_cpuTick {rnd : Byte} {s t : State} (hs : Inv s) (h : cpuTick rnd s = .next t) : Inv t := by
  rcases cpuTick_cases rnd s with ⟨-, e⟩ | ⟨-, -, e⟩ | ⟨-, -, -, e⟩ | ⟨-, hpc, i, -, e⟩ <;> rw [e] at h
  · cases h
    exact hs
  · cases h
    exact hs.raise _
  · cases h
    exact hs.raise _
  · exact inv_exec (s := { s with rnd := rnd }) (hs.of_pc_eq rfl rfl rfl rfl rfl) hpc h

/-- What is done only while the machine is not stopped: nothing, or what is done (R113). -/
theorem eq_or_of_unlessStopped {s t : State} {o : Host.Outcome State Fault Refusal}
    (h : (if s.stopped then .next s else o) = .next t) : t = s ∨ o = .next t := by
  cases hs : s.stopped with
  | true => exact .inl (by simpa [hs] using h.symm)
  | false => exact .inr (by simpa [hs] using h)

theorem inv_loadImage {bytes : List Byte} {s t : State} (hs : Inv s) (h : handleLoadImage bytes s = .next t) : Inv t := by
  rcases eq_or_of_unlessStopped h with rfl | h
  · exact hs
  · by_cases hfit : imageFits bytes = true
    · rw [if_pos hfit] at h
      cases h
      have hlen : bytes.length ≤ 3584 := of_decide_eq_true hfit
      exact hs.storeBytes (.inr (by show 512 + bytes.length ≤ 4096; omega))
    · rw [if_neg hfit] at h
      cases h
      exact hs.raise _

/-- Every event keeps the invariant. -/
theorem inv_handleEvent {e : HostEvent} {s t : State} (hs : Inv s) (h : handleEvent e s = .next t) : Inv t := by
  cases e with
  | reset =>
    cases h
    exact (inv_resetWith s.params).of_pc_eq rfl rfl rfl rfl rfl
  | loadImage => exact inv_loadImage hs h
  | cpuTick => exact inv_cpuTick hs h
  | displayRead =>
    cases h
    exact hs
  | keySet | timerTick =>
    rcases eq_or_of_unlessStopped h with rfl | h
    · exact hs
    · cases h
      exact hs.of_pc_eq rfl rfl rfl rfl rfl

/-- The host's choice of an event leaves the machine as it is. -/
theorem takeNext_toCoreState_params (s : State) :
    (takeNext s).2.toCoreState = s.toCoreState ∧ (takeNext s).2.params = s.params := by
  rcases takeNext_cases s with ⟨_, _, -, e⟩ | ⟨-, -, e⟩ | ⟨_, _, -, -, e⟩ | ⟨-, -, e⟩ <;>
    (rw [e]; exact ⟨rfl, rfl⟩)

/-- Settles O50: the event of the step is taken from a state that meets the invariant, and every event keeps it. -/
theorem stepKeepsInv : Obligations.StepKeepsInv := by
  intro s t hs h
  obtain ⟨hcore, hparams⟩ := takeNext_toCoreState_params s
  have hnext : Inv (takeNext s).2 := hs.of_pc_eq (congrArg CoreState.mem hcore) hparams (congrArg CoreState.stack hcore)
    (congrArg CoreState.sp hcore) (congrArg CoreState.pc hcore)
  exact inv_handleEvent hnext h

theorem inv_of_reachable {s : State} (h : Reachable s) : Inv s := by
  induction h with
  | start p => exact (inv_resetWith p).of_pc_eq rfl rfl rfl rfl rfl
  | step _ hstep ih => exact stepKeepsInv _ _ ih hstep

theorem FaultCode.toNat_code_le (c : FaultCode) : c.code.toNat ≤ 4 := by
  cases c <;> decide

/-- Settles O51: the invariant holds of every reachable state. -/
theorem reachableStatesMeetR29 : Obligations.ReachableStatesMeetR29 := by
  intro s h
  obtain ⟨hwf, hpc, hentries⟩ := inv_of_reachable h
  exact ⟨hpc, Nat.le_of_lt_succ s.sp.isLt, s.fault.toNat_code_le, hwf, hentries⟩

end Sys2Proof.Machine
end

section
/-! PROOFS. What nothing reads: popped stack entries (R17), `waiting` (R25), and whatever is no element of the machine
(R26). Each is a relation between two states, and one event from related states answers related states. -/

namespace Sys2Proof.Machine

/-! ### Events from two states -/

/-- Both outcomes are next states, and `R` relates them. -/
def NextRel (R : State → State → Prop) (o o' : Host.Outcome State Fault Refusal) : Prop :=
  ∃ t t', o = .next t ∧ o' = .next t' ∧ R t t'

section
variable {R : State → State → Prop} {s s' : State}

theorem NextRel.next (h : R s s') : NextRel R (.next s) (.next s') := ⟨s, s', rfl, rfl, h⟩

/-- What two running machines do only while not stopped. -/
theorem nextRel_unlessStopped {o o' : Host.Outcome State Fault Refusal} (hfault : s'.fault = s.fault)
    (hstopped : s.fault ≠ .none → R s s') (hrun : NextRel R o o') :
    NextRel R (if s.stopped then .next s else o) (if s'.stopped then .next s' else o') := by
  have hst : s'.stopped = s.stopped := by rw [State.stopped, State.stopped, hfault]
  rw [hst]
  cases h : s.stopped with
  | true => exact .next (hstopped ((stopped_iff s).1 h))
  | false => exact hrun

/-- Two CPU ticks that fetch the same opcode. -/
theorem nextRel_cpuTick {rnd : Byte} (hfault : s'.fault = s.fault) (hfetch : fetch s' = fetch s)
    (hstopped : s.fault ≠ .none → R s s') (hraise : ∀ c, c ≠ .none → R (s.raise c) (s'.raise c))
    (hexec : ∀ i, NextRel R (exec i { s with rnd := rnd }) (exec i { s' with rnd := rnd })) :
    NextRel R (cpuTick rnd s) (cpuTick rnd s') := by
  refine nextRel_unlessStopped hfault hstopped ?_
  rw [hfetch]
  rcases fetch_cases s with ⟨-, e⟩ | ⟨-, e⟩ <;> rw [e]
  · dsimp only
    cases decode _ with
    | error _ => exact .next (hraise .badop (by decide))
    | ok i => exact hexec i
  · exact .next (hraise .oob (by decide))

/-- Two commits of updates made of one checked result. -/
theorem nextRel_commit_map {α : Type} {r : Except FaultCode α} {f f' : α → State} (hr : r ≠ .error .none)
    (hraise : ∀ c, c ≠ .none → R (s.raise c) (s'.raise c)) (hf : ∀ a, R (f a) (f' a)) :
    NextRel R (commit s (r.map f)) (commit s' (r.map f')) := by
  cases r with
  | ok a => exact .next (hf a)
  | error c => exact .next (hraise c (fun hc => hr (congrArg Except.error hc)))

/-- Two commits of the same checked write. -/
theorem nextRel_commit_memWrite {t t' : State} (a : Nat) (bytes : List Byte)
    (hraise : ∀ c, c ≠ .none → R (s.raise c) (s'.raise c))
    (hstore : R (t.storeBytes a bytes) (t'.storeBytes a bytes)) :
    NextRel R (commit s (memWrite t a bytes)) (commit s' (memWrite t' a bytes)) := by
  unfold memWrite
  split
  · exact .next hstore
  · exact .next (hraise .oob (by decide))

end

/-! What raises raises a fatal condition: never the code `NONE` (R106). -/

theorem memRead_ne_error_none (s : State) (a n : Nat) : memRead s a n ≠ .error .none := by
  rcases memRead_cases s a n with ⟨-, e⟩ | ⟨-, e⟩ <;> simp [e]

theorem push_ne_error_none (s : State) (v : Word) : s.push v ≠ .error .none := by
  rcases push_cases s v with ⟨_, e⟩ | ⟨-, e⟩ <;> simp [e]

theorem pop_ne_error_none (s : State) : s.pop ≠ .error .none := by
  rcases pop_cases s with ⟨_, _, e⟩ | ⟨-, e⟩ <;> simp [e]

/-! ### Popped stack entries -/

/-! The stack `σ` holds the valid entries of `s`, and anything at or above the cursor. -/

section
variable {s : State} {σ : Vector Word 16} (hσ : ∀ i : Fin 16, i.val < s.sp.val → σ[i.val] = s.stack[i.val])
include hσ

theorem sameButStaleStack_skipIf (c : Bool) :
    SameButStaleStack (s.skipIf c) (State.skipIf { s with stack := σ } c) := by
  cases c <;> exact ⟨rfl, hσ⟩

/-- `00EE` reads the entry below the cursor and makes it stale. -/
theorem nextRel_stale_ret :
    NextRel SameButStaleStack (exec .ret s) (exec .ret { s with stack := σ }) := by
  rcases exec_ret_cases s with ⟨hsp, hlt, e⟩ | ⟨hsp, e⟩ <;>
    rcases exec_ret_cases { s with stack := σ } with ⟨hsp', hlt', e'⟩ | ⟨hsp', e'⟩
  · have htop : σ[s.sp.val - 1] = s.stack[s.sp.val - 1] := hσ ⟨s.sp.val - 1, hlt⟩ (Nat.sub_one_lt_of_lt hsp)
    rw [e, e']
    refine .next ⟨?_, fun i hi => hσ i (Nat.lt_of_lt_of_le hi (Nat.sub_le ..))⟩
    dsimp only
    rw [htop]
    rfl
  · exact absurd hsp' (Nat.ne_of_gt hsp)
  · exact absurd hsp (Nat.ne_of_gt hsp')
  · rw [e, e']
    exact .next ⟨rfl, hσ⟩

/-- `2NNN` writes the entry at the cursor, whatever it was, and makes it valid. -/
theorem nextRel_stale_call (nnn : BitVec 12) :
    NextRel SameButStaleStack (exec (.call nnn) s) (exec (.call nnn) { s with stack := σ }) := by
  rcases exec_call_cases nnn s with ⟨hsp, e⟩ | ⟨hsp, e⟩ <;>
    rcases exec_call_cases nnn { s with stack := σ } with ⟨hsp', e'⟩ | ⟨hsp', e'⟩
  · rw [e, e']
    refine .next ⟨rfl, fun i hi => ?_⟩
    show (σ.set s.sp.val (s.pc + 2))[i.val] = (s.stack.set s.sp.val (s.pc + 2))[i.val]
    rw [Vector.getElem_set, Vector.getElem_set]
    split
    · rfl
    · exact hσ i (by have : i.val < s.sp.val + 1 := hi; omega)
  · exact absurd hsp' (Nat.ne_of_lt hsp)
  · exact absurd hsp (Nat.ne_of_lt hsp')
  · rw [e, e']
    exact .next ⟨rfl, hσ⟩

/-- No instruction reads a popped entry, and each leaves the popped entries the only difference. -/
theorem nextRel_stale_exec (i : Instr) :
    NextRel SameButStaleStack (exec i s) (exec i { s with stack := σ }) := by
  cases i with
  | ret => exact nextRel_stale_ret hσ
  | call nnn => exact nextRel_stale_call hσ nnn
  | ldB | storeRegs => exact nextRel_commit_memWrite _ _ (fun _ _ => ⟨rfl, hσ⟩) ⟨rfl, hσ⟩
  | drw | loadRegs =>
    exact nextRel_commit_map (memRead_ne_error_none s _ _) (fun _ _ => ⟨rfl, hσ⟩) (fun _ => ⟨rfl, hσ⟩)
  | ldVxK x =>
    show NextRel _ (execLdVxK x s) (execLdVxK x { s with stack := σ })
    have hkey : lowestKey { s with stack := σ } = lowestKey s := rfl
    rw [execLdVxK, execLdVxK, hkey]
    cases lowestKey s <;> exact .next ⟨rfl, hσ⟩
  | seImm | sneImm | seReg | sneReg | skp | sknp => exact .next (sameButStaleStack_skipIf (s := s.advance) hσ _)
  | nop | cls | jp | ldImm | addImm | ldReg | orReg | andReg | xorReg | addReg | subReg | shr | subnReg | shl
  | ldI | jpV0 | rnd | ldVxDt | ldDtVx | ldStVx | addI | ldF => exact .next ⟨rfl, hσ⟩

/-- No event reads a popped entry. -/
theorem nextRel_stale_handleEvent (e : HostEvent) :
    NextRel SameButStaleStack (handleEvent e s) (handleEvent e { s with stack := σ }) := by
  cases e with
  | reset => exact .next ⟨rfl, fun _ _ => rfl⟩
  | cpuTick rnd =>
    exact nextRel_cpuTick rfl rfl (fun _ => ⟨rfl, hσ⟩) (fun _ _ => ⟨rfl, hσ⟩)
      (fun i => nextRel_stale_exec (s := { s with rnd := rnd }) hσ i)
  | loadImage bytes =>
    refine nextRel_unlessStopped rfl (fun _ => ⟨rfl, hσ⟩) ?_
    split <;> exact .next ⟨rfl, hσ⟩
  | keySet | timerTick => exact nextRel_unlessStopped rfl (fun _ => ⟨rfl, hσ⟩) (.next ⟨rfl, hσ⟩)
  | displayRead => exact .next ⟨rfl, hσ⟩

end

/-- The host's choice of an event does not depend on the stack. -/
theorem takeNext_withStack (s : State) (σ : Vector Word 16) :
    takeNext { s with stack := σ } = ((takeNext s).1, { (takeNext s).2 with stack := σ }) := by
  unfold takeNext
  dsimp only
  cases s.inbox with
  | cons e rest => rfl
  | nil => cases s.idle <;> rfl

/-- Settles O53: the host issues both states the same event, and no event reads a popped entry. -/
theorem staleStackEntriesAreUnobservable : Obligations.StaleStackEntriesAreUnobservable := by
  rintro s s' t ⟨hs', hσ⟩ h
  obtain ⟨hcore, -⟩ := takeNext_toCoreState_params s
  have hσnext : ∀ i : Fin 16, i.val < (takeNext s).2.sp.val → s'.stack[i.val] = (takeNext s).2.stack[i.val] := by
    rw [hcore]
    exact hσ
  obtain ⟨u, u', hu, hu', hrel⟩ := nextRel_stale_handleEvent hσnext (takeNext s).1
  obtain rfl : u = t := Host.Outcome.next.inj (hu.symm.trans h)
  refine ⟨u', ?_, hrel⟩
  rw [step_eq, hs', takeNext_withStack]
  exact hu'

/-! ### `waiting` -/

/-- At most `waiting` differs, and nothing does while the machine is not stopped. -/
def SameButWaiting (t t' : State) : Prop := t' = { t with waiting := t'.waiting } ∧ (t.fault = .none → t' = t)

theorem SameButWaiting.refl (t : State) : SameButWaiting t t := ⟨rfl, fun _ => rfl⟩

/-- A fatal condition keeps `waiting` as it was, and stops the machine. -/
theorem sameButWaiting_raise (s : State) (b : Bool) {c : FaultCode} (hc : c ≠ .none) :
    SameButWaiting (s.raise c) (State.raise { s with waiting := b } c) := ⟨rfl, fun h => absurd h hc⟩

/-- What an instruction commits does not depend on what `waiting` was: the advance clears it, and the wait of `FX0A`
sets it (R25, R56, R105). -/
theorem nextRel_sameButWaiting_exec (i : Instr) (b : Bool) (s : State) :
    NextRel SameButWaiting (exec i s) (exec i { s with waiting := b }) := by
  have hraise : ∀ c, c ≠ .none → SameButWaiting (s.raise c) (State.raise { s with waiting := b } c) :=
    fun _ hc => sameButWaiting_raise s b hc
  cases i with
  | ret => exact nextRel_commit_map (pop_ne_error_none s.advance) hraise (fun _ => .refl _)
  | call => exact nextRel_commit_map (push_ne_error_none s.advance _) hraise (fun _ => .refl _)
  | drw | loadRegs => exact nextRel_commit_map (memRead_ne_error_none s _ _) hraise (fun _ => .refl _)
  | ldB | storeRegs => exact nextRel_commit_memWrite (t := s.advance) _ _ hraise (.refl _)
  | ldVxK x =>
    show NextRel _ (execLdVxK x s) (execLdVxK x { s with waiting := b })
    have hkey : lowestKey { s with waiting := b } = lowestKey s := rfl
    rw [execLdVxK, execLdVxK, hkey]
    cases lowestKey s <;> exact .next (.refl _)
  | nop | cls | jp | ldImm | addImm | ldReg | orReg | andReg | xorReg | addReg | subReg | shr | subnReg | shl
  | ldI | jpV0 | rnd | ldVxDt | ldDtVx | ldStVx | addI | ldF | seImm | sneImm | seReg | sneReg | skp | sknp =>
    exact .next (.refl _)

/-- Settles O52: neither the fetch nor what an instruction commits depends on `waiting`, and a fatal condition keeps
it. -/
theorem waitingInfluencesNothing : Obligations.WaitingInfluencesNothing := by
  intro rnd b s
  have h : NextRel SameButWaiting (cpuTick rnd s) (cpuTick rnd { s with waiting := b }) :=
    nextRel_cpuTick rfl rfl (fun hf => ⟨rfl, fun hn => absurd hn hf⟩) (fun _ hc => sameButWaiting_raise s b hc)
      (fun i => nextRel_sameButWaiting_exec i b { s with rnd := rnd })
  exact h

/-! ### What is no element of the machine -/

/-- An instruction leaves the parameters as they are (R8). -/
theorem exec_params {i : Instr} {s t : State} (h : exec i s = .next t) : t.params = s.params :=
  exec_unchangedExcept i h .params (by cases i <;> simp [mayWrite])

/-- From states that differ in the sampled `rnd` alone, an event leaves the same elements and the same parameters as
before: a CPU tick samples it anew (R56, R88). -/
theorem nextRel_handleEvent_withRnd (e : HostEvent) (s : State) (r : Byte) :
    NextRel (fun t t' => t'.toCoreState = t.toCoreState ∧ t.params = s.params)
      (handleEvent e s) (handleEvent e { s with rnd := r }) := by
  cases e with
  | reset | displayRead => exact .next ⟨rfl, rfl⟩
  | cpuTick rnd =>
    refine nextRel_cpuTick rfl rfl (fun _ => ⟨rfl, rfl⟩) (fun _ _ => ⟨rfl, rfl⟩) (fun i => ?_)
    obtain ⟨t, ht, -⟩ := ignoresHost_exec i { s with rnd := rnd }
    exact ⟨t, t, ht, ht, rfl, exec_params (s := { s with rnd := rnd }) ht⟩
  | loadImage bytes =>
    refine nextRel_unlessStopped rfl (fun _ => ⟨rfl, rfl⟩) ?_
    split <;> exact .next ⟨rfl, rfl⟩
  | keySet | timerTick => exact nextRel_unlessStopped rfl (fun _ => ⟨rfl, rfl⟩) (.next ⟨rfl, rfl⟩)

/-- Settles O57: the other state is this one with another sampled `rnd` beside another host; no event reads the first
but what it samples itself, and none reads or writes the second. -/
theorem eventsReadOnlyTheTwelveElements : Obligations.EventsReadOnlyTheTwelveElements := by
  intro e s s' hcore hparams
  have hs' : s' = ({ s with rnd := s'.rnd } : State).withHost s' := by
    rw [State.withHost, ← hcore, ← hparams]
  obtain ⟨t, t', ht, ht', hrel, hkeep⟩ := nextRel_handleEvent_withRnd e s s'.rnd
  have hhost : t = (afterEvent s e).withHost s := Host.Outcome.next.inj (ht.symm.trans (handleEvent_withHost e s s))
  have hother : handleEvent e s' = .next (t'.withHost s') := by
    rw [hs', handleEvent_withHost, afterEvent, ht']
    rfl
  refine ⟨t, _, ht, hother, hrel, hkeep, ?_, ?_, ?_⟩ <;> (rw [hhost]; rfl)

end Sys2Proof.Machine
end

section
/-! PROOFS. Main memory as fetch, `FX55` and `load_image` use it (R35 to R37, R42, R43, R94, R110). -/

namespace Sys2Proof.Machine

/-! ### Fetch -/

/-- Settles O7, by the two cases of a fetch. -/
theorem fetchReadsTwoBytesBigEndian : Obligations.FetchReadsTwoBytesBigEndian := by
  intro s
  rcases fetch_cases s with ⟨hpc, e⟩ | ⟨hpc, e⟩
  · exact ⟨fun _ => ⟨_, e, toNat_opcodeOf _ _⟩, fun h => by omega⟩
  · exact ⟨fun h => by omega, fun _ => e⟩

/-- A fetch at an address inside memory reads the bytes there, wherever `pc` was (R35). -/
theorem fetch_setPc {s : State} {a : Nat} (ha : a ≤ 4094) :
    fetch (s.setPc (BitVec.ofNat 16 a)) = .ok (opcodeOf (s.byteAt a) (s.byteAt (a + 1))) := by
  have hpc : (s.setPc (BitVec.ofNat 16 a)).pc.toNat = a :=
    (BitVec.toNat_ofNat a 16).trans (Nat.mod_eq_of_lt (by omega))
  rcases fetch_cases (s.setPc (BitVec.ofNat 16 a)) with ⟨-, e⟩ | ⟨h, -⟩
  · rw [e, hpc]
    rfl
  · omega

/-! ### Registers stored at `I` -/

/-- What `FX55` leaves at `I + i` is `V[i]` (R94). -/
theorem byteAt_storedRegs {s : State} {x i : Reg} (hwf : s.memWf) (hr : indexAddr s + (x.val + 1) ≤ 4096) (hi : i ≤ x) :
    (s.advance.storeBytes (indexAddr s) (regsUpTo s x)).byteAt (indexAddr s + i.val) = s.getV i := by
  have hlen := length_regsUpTo s x
  have hk : i.val < (regsUpTo s x).length := by rw [hlen]; exact Nat.lt_succ_of_le hi
  rw [State.byteAt_storeBytes_in (s := s.advance) hwf (by rw [hlen]; exact hr) hk, getElem_regsUpTo]

/-- Settles O40: both bytes the fetch reads were stored. -/
theorem fetchSeesStoredRegisters : Obligations.FetchSeesStoredRegisters := by
  intro x i j s hwf hbound hj hjx
  have hjx' : j.val ≤ x.val := hjx
  rcases exec_storeRegs_cases x s with ⟨hr, e⟩ | ⟨hr, -⟩
  · refine ⟨_, e, ?_⟩
    have hlow := byteAt_storedRegs hwf hr hjx
    rw [hj, ← Nat.add_assoc] at hlow
    rw [fetch_setPc (by omega), byteAt_storedRegs hwf hr (show i.val ≤ x.val by omega), hlow]
  · omega

/-! ### `load_image` -/

/-- `load_image`: nothing in a stopped machine; a fitting image is stored at 512; on an overlong one `LOAD` is taken
(R43, R110). -/
theorem handleLoadImage_cases (bytes : List Byte) (s : State) :
    (s.fault ≠ .none ∧ handleLoadImage bytes s = .next s) ∨
    (s.fault = .none ∧ bytes.length ≤ 3584 ∧ handleLoadImage bytes s = .next (s.storeBytes 512 bytes)) ∨
    (s.fault = .none ∧ 3584 < bytes.length ∧ handleLoadImage bytes s = .next (s.raise .load)) := by
  unfold handleLoadImage
  by_cases hf : s.fault = .none
  · rw [stopped_eq_false hf]
    by_cases hlen : bytes.length ≤ 3584
    · exact .inr (.inl ⟨hf, hlen, by simp [imageFits, hlen]⟩)
    · exact .inr (.inr ⟨hf, Nat.lt_of_not_le hlen, by simp [imageFits, hlen]⟩)
  · exact .inl ⟨hf, if_pos ((stopped_iff s).2 hf)⟩

/-- Taking an event from the queue writes nothing but the queue. -/
theorem onlyWrites_inbox (s : State) (rest : List HostEvent) : OnlyWrites [.inbox] s { s with inbox := rest } := by
  intro e he
  cases e with
  | inbox => exact absurd (List.mem_singleton_self _) he
  | _ => rfl

/-- Settles O16, by the three cases of `load_image`, from the state the event has been taken from. -/
theorem loadImageCopiesOrTakesFatalLoad : Obligations.LoadImageCopiesOrTakesFatalLoad := by
  intro s bytes rest hwf hq
  have htaken := onlyWrites_inbox s rest
  rw [step_of_inbox_cons hq]
  rcases handleLoadImage_cases bytes { s with inbox := rest } with ⟨hf, e⟩ | ⟨hf, hlen, e⟩ | ⟨hf, hlen, e⟩ <;>
    refine ⟨_, e, rfl, ?_⟩
  · exact ⟨fun h => absurd h hf, fun h => absurd h hf, fun _ => htaken⟩
  · refine ⟨fun _ _ => ⟨fun k hk => ?_, ?_⟩, fun _ h => by omega, fun h => absurd hf h⟩
    · exact State.byteAt_storeBytes_in (s := { s with inbox := rest }) hwf (by omega) hk
    · exact (htaken.trans (unchangedExcept_storeBytes _ 512 bytes)).mono (by simp)
  · refine ⟨fun _ h => by omega, fun _ _ => ⟨rfl, ?_⟩, fun h => absurd hf h⟩
    exact (htaken.trans (onlyWrites_raise _ .load)).mono (by simp)

end Sys2Proof.Machine
end

section
/-! PROOFS. The encoding (R46 to R52): decode and encode are inverse to each other, decode rejects exactly the illegal
space, and the rows of the opcode map are disjoint and complete. -/

namespace Sys2Proof.Machine

/-! ### An opcode from its fields (R46, R48) -/

section
variable {op : Opcode} {f n : BitVec 4} {nn : Byte}

theorem formatNNN_eq_of_fields (hf : (fieldF op).toNat = f.toNat) : formatNNN f (fieldNNN op) = op := by
  apply BitVec.eq_of_toNat_eq
  rw [toNat_formatNNN, toNat_fieldNNN, ← hf, toNat_fieldF]
  omega

theorem formatXNN_eq_of_fields (hf : (fieldF op).toNat = f.toNat) (hn : (fieldNN op).toNat = nn.toNat) :
    formatXNN f (fieldX op) nn = op := by
  apply BitVec.eq_of_toNat_eq
  rw [toNat_formatXNN, val_fieldX, ← hn, toNat_fieldNN, ← hf, toNat_fieldF]
  omega

theorem formatXYN_eq_of_fields (hf : (fieldF op).toNat = f.toNat) (hn : (fieldN op).toNat = n.toNat) :
    formatXYN f (fieldX op) (fieldY op) n = op := by
  apply BitVec.eq_of_toNat_eq
  rw [toNat_formatXYN, val_fieldX, val_fieldY, ← hn, toNat_fieldN, ← hf, toNat_fieldF]
  omega

end

/-! ### Decode, family by family (R50, R52) -/

/-- The illegal space in terms of the fields decode dispatches on (R46, R52). -/
theorem illegalOpcode_iff_fields (op : Opcode) :
    IllegalOpcode op ↔
      ((fieldF op).toNat = 0x0 ∧ op.toNat ≠ 0x000 ∧ op.toNat ≠ 0x0E0 ∧ op.toNat ≠ 0x0EE) ∨
      ((fieldF op).toNat = 0x5 ∧ (fieldN op).toNat ≠ 0) ∨
      ((fieldF op).toNat = 0x8 ∧ 0x8 ≤ (fieldN op).toNat ∧ (fieldN op).toNat ≠ 0xE) ∨
      ((fieldF op).toNat = 0x9 ∧ (fieldN op).toNat ≠ 0) ∨
      ((fieldF op).toNat = 0xE ∧ (fieldNN op).toNat ≠ 0x9E ∧ (fieldNN op).toNat ≠ 0xA1) ∨
      ((fieldF op).toNat = 0xF ∧ (fieldNN op).toNat ≠ 0x07 ∧ (fieldNN op).toNat ≠ 0x0A ∧
        (fieldNN op).toNat ≠ 0x15 ∧ (fieldNN op).toNat ≠ 0x18 ∧ (fieldNN op).toNat ≠ 0x1E ∧
        (fieldNN op).toNat ≠ 0x29 ∧ (fieldNN op).toNat ≠ 0x33 ∧ (fieldNN op).toNat ≠ 0x55 ∧
        (fieldNN op).toNat ≠ 0x65) := by
  simp only [IllegalOpcode, toNat_fieldF, toNat_fieldN, toNat_fieldNN, List.mem_cons, List.not_mem_nil, or_false, not_or]
  refine or_congr (and_congr_right fun _ => ?_) (or_congr_right (or_congr_left (and_congr_right fun _ => ?_))) <;> omega

/-- What decode may answer for `op`: outside the illegal space an instruction that `op` encodes, inside it a rejection
by name. -/
inductive DecodesOrRejects (op : Opcode) : Except Reject Instr → Prop where
  | ok {i : Instr} (hlegal : ¬ IllegalOpcode op) (henc : encode i = op) : DecodesOrRejects op (.ok i)
  | badop (hillegal : IllegalOpcode op) : DecodesOrRejects op (.error (.badop op))

section
variable {op : Opcode}

theorem decodesOrRejects_family0 (hf : (fieldF op).toNat = 0x0) : DecodesOrRejects op (decodeFamily0 op) := by
  have hill := illegalOpcode_iff_fields op
  unfold decodeFamily0
  split
  case h_4 =>
    simp only [imp_false] at *
    exact .badop (hill.2 (by omega))
  all_goals
    rename_i h
    exact .ok (by simp [hill, hf, h]) (BitVec.eq_of_toNat_eq h.symm)

/-- Families 5 and 9, whose low nibble must be 0. -/
theorem decodesOrRejects_whenN0 {i : Instr} (hill : IllegalOpcode op ↔ (fieldN op).toNat ≠ 0)
    (henc : (fieldN op).toNat = 0 → encode i = op) : DecodesOrRejects op (whenN0 op i) := by
  unfold whenN0
  split
  next hn =>
    have hn : (fieldN op).toNat = 0 := congrArg BitVec.toNat hn
    exact .ok (fun h => hill.1 h hn) (henc hn)
  next hn => exact .badop (hill.2 fun h => hn (BitVec.eq_of_toNat_eq h))

theorem decodesOrRejects_family8 (hf : (fieldF op).toNat = 0x8) : DecodesOrRejects op (decodeFamily8 op) := by
  have hill := illegalOpcode_iff_fields op
  unfold decodeFamily8
  split
  case h_10 =>
    simp only [imp_false] at *
    exact .badop (hill.2 (by omega))
  all_goals
    rename_i hn
    exact .ok (by simp [hill, hf, hn]) (formatXYN_eq_of_fields hf hn)

theorem decodesOrRejects_familyE (hf : (fieldF op).toNat = 0xE) : DecodesOrRejects op (decodeFamilyE op) := by
  have hill := illegalOpcode_iff_fields op
  unfold decodeFamilyE
  split
  case h_3 =>
    simp only [imp_false] at *
    exact .badop (hill.2 (by omega))
  all_goals
    rename_i hnn
    exact .ok (by simp [hill, hf, hnn]) (formatXNN_eq_of_fields hf hnn)

theorem decodesOrRejects_familyF (hf : (fieldF op).toNat = 0xF) : DecodesOrRejects op (decodeFamilyF op) := by
  have hill := illegalOpcode_iff_fields op
  unfold decodeFamilyF
  split
  case h_10 =>
    simp only [imp_false] at *
    exact .badop (hill.2 (by omega))
  all_goals
    rename_i hnn
    exact .ok (by simp [hill, hf, hnn]) (formatXNN_eq_of_fields hf hnn)

end

/-- Decode, once for all sixteen families (R50, R52): in the match on the family, case `h_k` is family `k - 1`. -/
theorem decodesOrRejects_decode (op : Opcode) : DecodesOrRejects op (decode op) := by
  have hill := illegalOpcode_iff_fields op
  unfold decode
  dsimp only
  split <;> rename_i hf
  case h_1 => exact decodesOrRejects_family0 hf
  case h_6 | h_10 =>
    exact decodesOrRejects_whenN0 (by simp [hill, hf]) fun hn => formatXYN_eq_of_fields hf hn
  case h_9 => exact decodesOrRejects_family8 hf
  case h_15 => exact decodesOrRejects_familyE hf
  case h_16 =>
    simp only [imp_false] at *
    exact decodesOrRejects_familyF (by omega)
  case h_2 | h_3 | h_11 | h_12 => exact .ok (by simp [hill, hf]) (formatNNN_eq_of_fields hf)
  case h_14 => exact .ok (by simp [hill, hf]) (formatXYN_eq_of_fields hf rfl)
  case h_4 | h_5 | h_7 | h_8 | h_13 => exact .ok (by simp [hill, hf]) (formatXNN_eq_of_fields hf rfl)

/-- Settles O3: decode answers an instruction only where its opcode is put together from the fields it read. -/
theorem encodeDecodeRoundTrip : Obligations.EncodeDecodeRoundTrip := by
  intro op i h
  obtain ⟨-, henc⟩ | - := h ▸ decodesOrRejects_decode op
  exact henc

/-- Settles O4, by what decode may answer. -/
theorem illegalSpaceIsExactlyRejected : Obligations.IllegalSpaceIsExactlyRejected := by
  intro op
  generalize decode op = r, decodesOrRejects_decode op = h
  cases h with
  | ok hlegal => exact ⟨fun h => absurd h hlegal, fun _ => ⟨_, rfl⟩⟩
  | badop hillegal => exact ⟨fun _ => rfl, fun h => absurd hillegal h⟩

/-! ### Decode after encode -/

/-- Decode reads back from the format of each row the fields that encode put there. -/
theorem decode_encode (i : Instr) : decode (encode i) = .ok i := by
  cases i with
  | nop | cls | ret => rfl
  | jp | call | ldI | jpV0 => simp [encode, decode]
  | seImm | sneImm | ldImm | addImm | rnd | drw => simp [encode, decode]
  | seReg | sneReg => simp [encode, decode, whenN0]
  | ldReg | orReg | andReg | xorReg | addReg | subReg | shr | subnReg | shl => simp [encode, decode, decodeFamily8]
  | skp | sknp => simp [encode, decode, decodeFamilyE]
  | ldVxDt | ldVxK | ldDtVx | ldStVx | addI | ldF | ldB | storeRegs | loadRegs =>
    simp [encode, decode, decodeFamilyF]

/-- Settles O2: the two bytes of an instruction put together are its opcode. -/
theorem decodeEncodeRoundTrip : Obligations.DecodeEncodeRoundTrip := by
  intro i rest
  refine ⟨decode_encode i, ?_⟩
  simp [encodeBytes, decodeBytes, decode_encode, Except.map]

/-! ### The opcode map (R47) -/

theorem row_mem_opcodeTable (i : Instr) : i.row ∈ opcodeTable := by
  cases i <;> exact List.elem_iff.1 rfl

/-- The opcode of an instruction selects its row. -/
theorem row_selects_encode (i : Instr) : i.row.selects (encode i) = true := by
  cases i with
  | nop | cls | ret => rfl
  | jp | call | ldI | jpV0 => exact Laws.MatchesRow.selects_formatNNN _ _
  | seImm | sneImm | ldImm | addImm | rnd => exact Laws.MatchesRow.selects_formatXNN _ _ _
  | drw => exact Laws.MatchesRow.selects_formatXYN _ _ _ _
  | seReg | sneReg | ldReg | orReg | andReg | xorReg | addReg | subReg | shr | subnReg | shl =>
    exact Laws.MatchesRow.selects_formatXY _ _ _ _
  | skp | sknp | ldVxDt | ldVxK | ldDtVx | ldStVx | addI | ldF | ldB | storeRegs | loadRegs =>
    exact Laws.MatchesRow.selects_formatX _ _ _

/-- No two rows agree on the bits that both of their masks keep. -/
theorem opcodeTable_disjoint :
    ∀ r ∈ opcodeTable, ∀ r' ∈ opcodeTable, r.bits &&& r'.mask = r'.bits &&& r.mask → r = r' := by
  decide

/-- An opcode selects at most one row: both rows hold the bits of the opcode that both masks keep. -/
theorem selects_unique {op : Opcode} {r r' : Row} (hr : r ∈ opcodeTable) (hr' : r' ∈ opcodeTable)
    (h : r.selects op = true) (h' : r'.selects op = true) : r = r' := by
  refine opcodeTable_disjoint r hr r' hr' ?_
  rw [← beq_iff_eq.1 h, ← beq_iff_eq.1 h', BitVec.and_assoc, BitVec.and_assoc, BitVec.and_comm r.mask]

/-- A row's match word is the opcode of an instruction of that row. -/
theorem row_decode_bits : ∀ r ∈ opcodeTable, (decode r.bits).map Instr.row = .ok r := by
  decide

theorem exists_row_eq {r : Row} (hr : r ∈ opcodeTable) : ∃ i : Instr, i.row = r := by
  have h := row_decode_bits r hr
  cases hd : decode r.bits with
  | ok i => exact ⟨i, Except.ok.inj (hd ▸ h)⟩
  | error e => rw [hd] at h; cases h

/-! What selecting a row says of the fields under its mask. -/

section
variable {op bits : Opcode}

theorem selects_FFFF_iff : Row.selects ⟨0xFFFF, bits⟩ op = true ↔ op.toNat = bits.toNat := by
  have hmask : op &&& 0xFFFF = op := BitVec.and_allOnes
  rw [Row.selects, hmask, beq_iff_eq, BitVec.toNat_inj]

theorem selects_F000_iff : Row.selects ⟨0xF000, bits⟩ op = true ↔ (fieldF op).toNat * 4096 = bits.toNat := by
  rw [Row.selects, beq_iff_eq, and_F000, ← BitVec.toNat_inj, toNat_formatNNN]
  simp

theorem selects_F00F_iff :
    Row.selects ⟨0xF00F, bits⟩ op = true ↔ (fieldF op).toNat * 4096 + (fieldN op).toNat = bits.toNat := by
  rw [Row.selects, beq_iff_eq, and_F00F, ← BitVec.toNat_inj, toNat_formatXYN]
  simp

theorem selects_F0FF_iff :
    Row.selects ⟨0xF0FF, bits⟩ op = true ↔ (fieldF op).toNat * 4096 + (fieldNN op).toNat = bits.toNat := by
  rw [Row.selects, beq_iff_eq, and_F0FF, ← BitVec.toNat_inj, toNat_formatXNN]
  simp

end

/-- What selects the row of an instruction is outside the illegal space. -/
theorem not_illegalOpcode_of_selects_row {op : Opcode} {i : Instr} (h : i.row.selects op = true) :
    ¬ IllegalOpcode op := by
  have hF := toNat_fieldF op
  rw [illegalOpcode_iff_fields]
  cases i with
  | nop | cls | ret =>
    have hop := selects_FFFF_iff.1 h
    simp only [BitVec.reduceToNat] at hop
    omega
  | jp | call | seImm | sneImm | ldImm | addImm | ldI | jpV0 | rnd | drw =>
    have hf := selects_F000_iff.1 h
    simp only [BitVec.reduceToNat] at hf
    omega
  | seReg | sneReg | ldReg | orReg | andReg | xorReg | addReg | subReg | shr | subnReg | shl =>
    have hfn := selects_F00F_iff.1 h
    simp only [BitVec.reduceToNat] at hfn
    omega
  | skp | sknp | ldVxDt | ldVxK | ldDtVx | ldStVx | addI | ldF | ldB | storeRegs | loadRegs =>
    have hfnn := selects_F0FF_iff.1 h
    simp only [BitVec.reduceToNat] at hfnn
    omega

/-- Settles O5: the opcode is the encoding of what it decodes to, and so selects its row; the table is disjoint; and
what selects a row is outside the illegal space. -/
theorem opcodeSelectsOneRow : Obligations.OpcodeSelectsOneRow := by
  constructor
  · intro op i h
    have hsel : i.row.selects op = true := encodeDecodeRoundTrip op i h ▸ row_selects_encode i
    refine ⟨row_mem_opcodeTable i, fun r hr => ⟨fun h' => ?_, fun h' => h' ▸ hsel⟩⟩
    exact selects_unique hr (row_mem_opcodeTable i) h' hsel
  · intro op hno r hr
    by_contra hsel
    obtain ⟨i, rfl⟩ := exists_row_eq hr
    have hlegal := not_illegalOpcode_of_selects_row (Bool.eq_true_of_not_eq_false hsel)
    obtain ⟨j, hj⟩ := (illegalSpaceIsExactlyRejected op).2 hlegal
    exact hno j hj

/-- Settles O1, by running decode on each word. -/
theorem specWordsDecode : Obligations.SpecWordsDecode := by
  unfold Obligations.SpecWordsDecode
  decide

end Sys2Proof.Machine
end

section
/-! PROOFS. The execution cycle (R56, R60): a step that is a CPU tick runs the decoded instruction, and a jump to itself
leaves a machine that is not waiting as it is. -/

namespace Sys2Proof.Machine

/-- Settles O6: each clause takes a CPU tick, and the taking changes nothing that fetch reads. -/
theorem stepRunsDecodedInstruction : Obligations.StepRunsDecodedInstruction := by
  intro s i hf hpc hd
  refine ⟨fun rnd rest hq => ?_, fun hq hi => ?_, fun rnd others hq hi => ?_⟩
  · rw [step_of_inbox_cons hq]
    exact cpuTick_eq_exec (s := { s with inbox := rest }) hf hpc hd
  · rw [step_of_cpuTicks hq hi]
    exact cpuTick_eq_exec (s := { s with draws := s.draws + 1 }) hf hpc hd
  · rw [step_of_repeats hq hi]
    exact cpuTick_eq_exec (s := { s with inbox := others }) hf hpc hd

/-- A jump to its own address undoes the advance; `waiting` is cleared where it already was (R56, R65). -/
theorem exec_jp_of_target_eq_pc {nnn : BitVec 12} {s : State} (hjump : addrOf nnn = s.pc) (hw : s.waiting = false) :
    exec (.jp nnn) s = .next s := by
  have hset : exec (.jp nnn) s = .next { s with pc := addrOf nnn, waiting := false } := rfl
  rw [hset, hjump, ← hw]

/-- Settles O54: the fetched opcode is the encoding of the jump, so the tick runs the jump to itself. -/
theorem parkedMachineStaysParked : Obligations.ParkedMachineStaysParked := by
  rintro rnd s ⟨hf, hw, hpc, nnn, hjump, hop⟩
  have hd : decode (opcodeOf (s.byteAt s.pc.toNat) (s.byteAt (s.pc.toNat + 1))) = .ok (.jp nnn) :=
    hop ▸ decode_encode (.jp nnn)
  rw [cpuTick_eq_exec hf hpc hd]
  exact exec_jp_of_target_eq_pc (s := { s with rnd := rnd }) hjump hw

end Sys2Proof.Machine
end

section
/-! PROOFS. Control flow (R61 to R67): what a call, a return and the two jumps leave, and zeroed memory run as
no-operations up to the end of memory (R63, R130). -/

namespace Sys2Proof.Machine

/-! ### Past the end of memory, and a fatal condition taken -/

section
variable {s : State}

/-- No two bytes of memory stand at 4095 or above (R35). -/
theorem fetch_eq_oob (hpc : 4095 ≤ s.pc.toNat) : fetch s = .error .oob := by
  rcases fetch_cases s with ⟨h, -⟩ | ⟨-, e⟩
  · omega
  · exact e

/-- A running machine takes `OOB` at 4095 and above (R112). -/
theorem cpuTick_eq_raise_oob (rnd : Byte) (hf : s.fault = .none) (hpc : 4095 ≤ s.pc.toNat) :
    cpuTick rnd s = .next (s.raise .oob) := by
  rcases cpuTick_cases rnd s with ⟨h, -⟩ | ⟨-, -, e⟩ | ⟨-, h, -⟩ | ⟨-, h, -⟩
  · exact absurd hf h
  · exact e
  · omega
  · omega

theorem takesFatal_of_eq_raise {c : FaultCode} {o : Host.Outcome State Fault Refusal} (h : o = .next (s.raise c)) :
    TakesFatal c s o :=
  ⟨_, h, rfl, onlyWrites_raise s c⟩

end

/-! ### Call and return -/

/-- Settles O20, by the two outcomes of a call: the entry at the cursor is the one written, the frame that of its
updates one after another. -/
theorem callPushesReturnAddress : Obligations.CallPushesReturnAddress := by
  intro nnn s
  refine ⟨decode_encode (.call nnn), ?_⟩
  rcases exec_call_cases nnn s with ⟨hfree, e⟩ | ⟨hfull, e⟩
  · refine ⟨fun k hk => ?_, fun hfull => by omega⟩
    obtain rfl : k = ⟨s.sp.val, hfree⟩ := Fin.ext hk.symm
    refine ⟨_, e, Vector.getElem_set_self hfree, rfl, toNat_addrOf nnn, rfl, ?_⟩
    refine unchangedExcept_of_advance
      (((unchangedExcept_setStack _ _ hfree _).trans (onlyWrites_sp _ _)).trans (onlyWrites_setPc _ _)) ?_
    grind
  · exact ⟨fun k hk => by omega, fun _ => takesFatal_of_eq_raise e⟩

/-- Settles O21, by the two outcomes of a return: only the cursor and `pc` are written after the advance. -/
theorem returnPopsIntoPc : Obligations.ReturnPopsIntoPc := by
  refine ⟨decode_encode .ret, fun s => ?_⟩
  rcases exec_ret_cases s with ⟨hentry, hlt, e⟩ | ⟨hempty, e⟩
  · refine ⟨fun k hk => ?_, fun hempty => by omega⟩
    obtain rfl : k = ⟨s.sp.val - 1, hlt⟩ := Fin.ext (by show k.val = s.sp.val - 1; omega)
    refine ⟨_, e, rfl, rfl, rfl, ?_, fun hpast => fetch_eq_oob hpast⟩
    exact unchangedExcept_of_advance ((onlyWrites_sp _ _).trans (onlyWrites_setPc _ _)) (by grind)
  · exact ⟨fun k hk => by omega, fun _ => takesFatal_of_eq_raise e⟩

/-- Settles O23: the return pops the entry the call pushed. -/
theorem callThenReturnComesBack : Obligations.CallThenReturnComesBack := by
  intro nnn s hfree
  obtain ⟨-, hcall, -⟩ := callPushesReturnAddress nnn s
  obtain ⟨t, ht, hentry, hsp, -⟩ := hcall ⟨s.sp.val, hfree⟩ rfl
  obtain ⟨hret, -⟩ := returnPopsIntoPc.2 t
  obtain ⟨u, hu, hpc, hsp', -⟩ := hret ⟨s.sp.val, hfree⟩ hsp
  exact ⟨t, u, ht, hu, hpc.trans hentry, Fin.ext hsp'⟩

/-! ### No-operations and jumps -/

/-- Settles O18: an opcode of family 0 other than the three legal ones is in the illegal space, which decode rejects. -/
theorem nopOnlyAdvancesPc : Obligations.NopOnlyAdvancesPc := by
  refine ⟨decode_encode .nop, fun op hfam hnop hcls hret => ?_, fun s => ⟨_, rfl, rfl, rfl, onlyWrites_advance s⟩⟩
  refine (illegalSpaceIsExactlyRejected op).1 (.inl ⟨hfam, ?_⟩)
  rw [Nat.mod_eq_of_lt (Nat.lt_of_div_eq_zero (by decide) hfam)]
  simpa [← BitVec.toNat_inj] using And.intro hnop (And.intro hcls hret)

/-- Settles O19: a 12-bit target is itself as an address, and 4095 is past the last fetch. -/
theorem jumpSetsPcToImmediate : Obligations.JumpSetsPcToImmediate := by
  intro nnn s
  have hpc := toNat_addrOf nnn
  refine ⟨decode_encode (.jp nnn), _, rfl, hpc, rfl, exec_unchangedExcept (.jp nnn) rfl, fun htop => ?_⟩
  exact fetch_eq_oob (hpc.trans htop).ge

/-- Settles O22: the sum fits 16 bits, so it is exact. -/
theorem jumpV0AddsRegisterZero : Obligations.JumpV0AddsRegisterZero := by
  intro nnn s
  have hpc := toNat_jumpV0Target nnn s
  refine ⟨decode_encode (.jpV0 nnn), _, rfl, hpc, rfl, exec_unchangedExcept (.jpV0 nnn) rfl, fun hpast => ?_⟩
  exact fetch_eq_oob (hpast.trans_eq hpc.symm)

/-! ### Zeroed memory -/

section
variable {s : State}

/-- A step over two zero bytes is a no-operation (R63). -/
theorem step_of_zero_bytes (hf : s.fault = .none) (hq : s.inbox = []) (hi : s.idle = .cpuTicks)
    (hpc : s.pc.toNat ≤ 4094) (hhigh : s.byteAt s.pc.toNat = 0) (hlow : s.byteAt (s.pc.toNat + 1) = 0) :
    ∃ t, step s = .next t ∧ t.pc.toNat = s.pc.toNat + 2 ∧ t.waiting = false ∧
      OnlyWrites [.pc, .waiting, .rnd, .draws] s t := by
  have hd : decode (opcodeOf (s.byteAt s.pc.toNat) (s.byteAt (s.pc.toNat + 1))) = .ok .nop := by
    rw [hhigh, hlow]
    rfl
  have hstep : step s = .next (State.advance { s with draws := s.draws + 1, rnd := Config.freeRnd s.draws }) :=
    (step_of_cpuTicks hq hi).trans (cpuTick_eq_exec (s := { s with draws := s.draws + 1 }) hf hpc hd)
  refine ⟨_, hstep, toNat_pc_add_two hpc, rfl, fun e he => ?_⟩
  cases e with
  | pc | waiting | rnd | draws => simp at he
  | _ => rfl

/-- What no-operations leave as it was: a running machine still runs, its host still issues CPU ticks and nothing else,
and memory reads the same. -/
theorem running_of_onlyWrites {t : State} (hframe : OnlyWrites [.pc, .waiting, .rnd, .draws] s t) :
    t.fault = s.fault ∧ t.inbox = s.inbox ∧ t.idle = s.idle ∧ ∀ a, t.byteAt a = s.byteAt a :=
  ⟨hframe .fault (by simp), hframe .inbox (by simp), hframe .idle (by simp), fun a => hframe (.mem a) (by simp)⟩

/-- The run over zero bytes. Its first step clears `waiting`; that the later ones, which may be none, leave it cleared is
the second way to the last clause, and what the induction hands on. -/
theorem run_zero_bytes (k : Nat) (hf : s.fault = .none) (hq : s.inbox = []) (hi : s.idle = .cpuTicks)
    (hend : s.pc.toNat + 2 * k ≤ 4096)
    (hzero : ∀ a, s.pc.toNat ≤ a → a < s.pc.toNat + 2 * k → s.byteAt a = 0) :
    ∃ t, Host.Core.run Sys2Proof.core k s = .next t ∧ t.pc.toNat = s.pc.toNat + 2 * k ∧
      OnlyWrites [.pc, .waiting, .rnd, .draws] s t ∧ (0 < k ∨ s.waiting = false → t.waiting = false) := by
  induction k generalizing s with
  | zero => exact ⟨s, rfl, rfl, fun e _ => by cases e <;> rfl, by simp⟩
  | succ k ih =>
    obtain ⟨t, hst, hpc, hw, hframe⟩ := step_of_zero_bytes hf hq hi (by omega)
      (hzero _ (by omega) (by omega)) (hzero _ (by omega) (by omega))
    obtain ⟨hf', hq', hi', hmem⟩ := running_of_onlyWrites hframe
    obtain ⟨u, hrun, hpcu, hframeu, hwu⟩ := ih (hf'.trans hf) (hq'.trans hq) (hi'.trans hi) (by omega)
      (fun a hlo hhi => (hmem a).trans (hzero a (by omega) (by omega)))
    refine ⟨u, (run_succ_of_step k hst).trans hrun, by omega, ?_, fun _ => hwu (.inr hw)⟩
    exact (hframe.trans hframeu).mono (fun _ he => he.elim id id)

end

/-- Settles O56: the run over the zero bytes leaves a running machine, whose next fetch at 4096 is out of bounds. -/
theorem zeroedMemoryRunsAsNoOperations : Obligations.ZeroedMemoryRunsAsNoOperations := by
  intro k s hf hq hi hend hzero
  obtain ⟨t, hrun, hpc, hframe, hw⟩ := run_zero_bytes k hf hq hi hend hzero
  refine ⟨t, hrun, hpc, hframe, fun hk => hw (.inl hk), fun htop => ?_⟩
  obtain ⟨hf', hq', hi', -⟩ := running_of_onlyWrites hframe
  have htick := cpuTick_eq_raise_oob (s := { t with draws := t.draws + 1 }) (Config.freeRnd t.draws)
    (hf'.trans hf) (show 4095 ≤ t.pc.toNat by omega)
  exact ⟨_, (step_of_cpuTicks (hq'.trans hq) (hi'.trans hi)).trans htick, rfl, rfl⟩

end Sys2Proof.Machine
end

section
/-! PROOFS. The conditional skips (R69 to R75): a skip ends 4 beyond the instruction if its condition holds and 2 beyond
it if not, and writes nothing but `pc` and `waiting`. -/

namespace Sys2Proof.Machine

/-- What an instruction that skips on `c` leaves, where `c` computes the condition `P` (R56, R58). -/
theorem exec_skip_outcome {i : Instr} {s : State} {c : Bool} {P : Prop} [Decidable P]
    (h : exec i s = .next (s.advance.skipIf c)) (hc : c = true ↔ P) :
    ∃ t, exec i s = .next t ∧ t.pc = (if P then s.pc + 4 else s.pc + 2) ∧
      t.waiting = false ∧ OnlyWrites [.pc, .waiting] s t := by
  refine ⟨_, h, (State.skipIf_advance_pc s c).trans (if_congr hc rfl rfl), State.skipIf_waiting s.advance c, ?_⟩
  exact unchangedExcept_of_advance (onlyWrites_skipIf _ c) (by grind)

/-! ### Skips on a register -/

/-- Settles O24: the condition compares the register with the immediate. -/
theorem skipOnImmediate : Obligations.SkipOnImmediate := by
  intro x nn s
  exact ⟨⟨decode_encode (.seImm x nn), exec_skip_outcome rfl beq_iff_eq⟩,
    ⟨decode_encode (.sneImm x nn), exec_skip_outcome rfl bne_iff_ne⟩⟩

/-- In the families 5 and 9 an opcode whose low nibble is not 0 is in the illegal space (R52). -/
theorem decode_formatXYN_eq_badop {f n : BitVec 4} (x y : Reg) (hf : f = 0x5 ∨ f = 0x9) (hn : n ≠ 0) :
    decode (formatXYN f x y n) = .error (.badop (formatXYN f x y n)) := by
  have hn' : n.toNat ≠ 0 := BitVec.toNat_ne.1 hn
  refine (illegalSpaceIsExactlyRejected _).1 ((illegalOpcode_iff_fields _).2 ?_)
  rw [fieldF_formatXYN, fieldN_formatXYN]
  rcases hf with rfl | rfl
  · exact .inr (.inl ⟨rfl, hn'⟩)
  · exact .inr (.inr (.inr (.inl ⟨rfl, hn'⟩)))

/-- Settles O25: the condition compares the two registers. -/
theorem skipOnRegisters : Obligations.SkipOnRegisters := by
  intro x y s
  refine ⟨fun n hn => ?_, ⟨decode_encode (.seReg x y), exec_skip_outcome rfl beq_iff_eq⟩,
    ⟨decode_encode (.sneReg x y), exec_skip_outcome rfl bne_iff_ne⟩⟩
  exact ⟨decode_formatXYN_eq_badop x y (.inl rfl) hn, decode_formatXYN_eq_badop x y (.inr rfl) hn⟩

/-! ### Skips on a key -/

/-- A register value matches a pressed key iff some key of that number is pressed: above 15 there is none (R75). -/
theorem keyDown_iff_exists_key (s : State) (v : Byte) :
    keyDown s v = true ↔ ∃ k : Key, k.val = v.toNat ∧ s.keys[k.val] = true := by
  rcases Nat.lt_or_ge v.toNat 16 with hv | hv
  · rw [keyDown_eq s hv]
    refine ⟨fun h => ⟨⟨v.toNat, hv⟩, rfl, h⟩, ?_⟩
    rintro ⟨k, hk, h⟩
    obtain rfl : k = ⟨v.toNat, hv⟩ := Fin.ext hk
    exact h
  · rw [keyDown_eq_false s hv]
    refine ⟨fun h => (Bool.false_ne_true h).elim, ?_⟩
    rintro ⟨k, hk, -⟩
    omega

/-- Settles O26: `EX9E` skips on a match with a pressed key, `EXA1` on none. -/
theorem skipOnKey : Obligations.SkipOnKey := by
  intro x s
  have hkey := keyDown_iff_exists_key s (s.getV x)
  rw [← hkey]
  constructor
  · obtain ⟨t, ht, hpc, hrest⟩ := exec_skip_outcome (i := .skp x) (s := s) rfl Iff.rfl
    exact ⟨decode_encode (.skp x), t, ht, fun h => hpc.trans (if_pos h), fun h => hpc.trans (if_neg h), hrest⟩
  · obtain ⟨t, ht, hpc, hrest⟩ := exec_skip_outcome (i := .sknp x) (s := s) rfl Bool.not_iff_not
    exact ⟨decode_encode (.sknp x), t, ht, fun h => hpc.trans (if_neg (not_not_intro h)),
      fun h => hpc.trans (if_pos h), hrest⟩

end Sys2Proof.Machine
end

section
/-! PROOFS. The register, arithmetic and logic instructions (R76 to R88): the random byte is read by `CXNN` alone, and
each instruction is its written values and the frame of what it writes. -/

namespace Sys2Proof.Machine

/-! ### The random byte -/

/-- The random byte `r` in the place of the one sampled, and no other difference. -/
def SameButRnd (r : Byte) (t t' : State) : Prop := t' = { t with rnd := r }

section
variable (s : State) (r : Byte)

theorem sameButRnd_skipIf (c : Bool) : SameButRnd r (s.skipIf c) (State.skipIf { s with rnd := r } c) := by
  cases c <;> rfl

theorem pop_withRnd : State.pop { s with rnd := r } = s.pop.map (fun p => (p.1, { p.2 with rnd := r })) := by
  unfold State.pop
  split <;> rfl

theorem push_withRnd (v : Word) :
    State.push { s with rnd := r } v = (s.push v).map (fun t => { t with rnd := r }) := by
  unfold State.push
  split <;> rfl

theorem nextRel_sameButRnd_ret : NextRel (SameButRnd r) (exec .ret s) (exec .ret { s with rnd := r }) := by
  show NextRel _ (commit s (s.advance.pop.map _))
    (commit { s with rnd := r } ((State.pop { s.advance with rnd := r }).map _))
  rw [pop_withRnd s.advance r]
  cases s.advance.pop <;> exact .next rfl

theorem nextRel_sameButRnd_call (nnn : BitVec 12) :
    NextRel (SameButRnd r) (exec (.call nnn) s) (exec (.call nnn) { s with rnd := r }) := by
  show NextRel _ (commit s ((s.advance.push s.advance.pc).map _))
    (commit { s with rnd := r } ((State.push { s.advance with rnd := r } s.advance.pc).map _))
  rw [push_withRnd s.advance r]
  cases s.advance.push s.advance.pc <;> exact .next rfl

theorem nextRel_sameButRnd_ldVxK (x : Reg) :
    NextRel (SameButRnd r) (exec (.ldVxK x) s) (exec (.ldVxK x) { s with rnd := r }) := by
  show NextRel _ (execLdVxK x s) (execLdVxK x { s with rnd := r })
  have hkey : lowestKey { s with rnd := r } = lowestKey s := rfl
  rw [execLdVxK, execLdVxK, hkey]
  cases lowestKey s <;> exact .next rfl

/-- No instruction but `CXNN` reads the random byte, and none writes it (R88). -/
theorem nextRel_sameButRnd_exec {i : Instr} (hi : ∀ x nn, i ≠ .rnd x nn) :
    NextRel (SameButRnd r) (exec i s) (exec i { s with rnd := r }) := by
  cases i with
  | rnd x nn => exact absurd rfl (hi x nn)
  | ret => exact nextRel_sameButRnd_ret s r
  | call nnn => exact nextRel_sameButRnd_call s r nnn
  | ldVxK x => exact nextRel_sameButRnd_ldVxK s r x
  | ldB | storeRegs => exact nextRel_commit_memWrite (t := s.advance) _ _ (fun _ _ => rfl) rfl
  | drw | loadRegs => exact nextRel_commit_map (memRead_ne_error_none s _ _) (fun _ _ => rfl) (fun _ => rfl)
  | seImm | sneImm | seReg | sneReg | skp | sknp => exact .next (sameButRnd_skipIf s.advance r _)
  | nop | cls | jp | ldImm | addImm | ldReg | orReg | andReg | xorReg | addReg | subReg | shr | subnReg | shl
  | ldI | jpV0 | ldVxDt | ldDtVx | ldStVx | addI | ldF => exact .next rfl

end

/-- Settles O34: from the two states the instruction answers two that differ in the random byte alone. -/
theorem randomByteReadOnlyByRnd : Obligations.RandomByteReadOnlyByRnd := by
  intro i s t r hi h
  obtain ⟨u, u', hu, hu', rfl⟩ := nextRel_sameButRnd_exec s r hi
  obtain rfl : u = t := Host.Outcome.next.inj (hu.symm.trans h)
  exact hu'

/-! ### One register written -/

theorem State.getV_setV_same (s : State) (x : Reg) (v : Byte) : (s.setV x v).getV x = v :=
  (s.getV_setV x x v).trans (if_pos rfl)

/-- Settles O27: each answers the state advanced with the one register written. -/
theorem loadRegisterSetsVx : Obligations.LoadRegisterSetsVx := by
  intro x y nn s
  constructor
  · exact ⟨decode_encode (.ldImm x nn), _, rfl, State.getV_setV_same _ x _, rfl, rfl,
      exec_unchangedExcept (.ldImm x nn) rfl⟩
  · exact ⟨decode_encode (.ldReg x y), _, rfl, State.getV_setV_same _ x _, rfl, rfl,
      exec_unchangedExcept (.ldReg x y) rfl⟩

/-- Settles O28: 8-bit addition is addition modulo 256, and the frame holds no flag. -/
theorem addImmediateWrapsWithoutFlag : Obligations.AddImmediateWrapsWithoutFlag := by
  intro x nn s
  refine ⟨decode_encode (.addImm x nn), _, rfl, ?_, rfl, rfl, exec_unchangedExcept (.addImm x nn) rfl⟩
  rw [State.getV_setV_same, BitVec.toNat_add]

/-- Settles O29, bit by bit. -/
theorem logicOperationsAreBitwise : Obligations.LogicOperationsAreBitwise := by
  intro x y s
  refine ⟨⟨decode_encode (.orReg x y), _, rfl, rfl, rfl, fun j => ?_, exec_unchangedExcept (.orReg x y) rfl⟩,
    ⟨decode_encode (.andReg x y), _, rfl, rfl, rfl, fun j => ?_, exec_unchangedExcept (.andReg x y) rfl⟩,
    ⟨decode_encode (.xorReg x y), _, rfl, rfl, rfl, fun j => ?_, exec_unchangedExcept (.xorReg x y) rfl⟩⟩
  · rw [State.getV_setV_same, BitVec.getLsbD_or]
  · rw [State.getV_setV_same, BitVec.getLsbD_and]
  · rw [State.getV_setV_same, BitVec.getLsbD_xor]

/-- Settles O33: the byte written is the immediate masked, whichever byte the tick sampled. -/
theorem randomIsMaskedByImmediate : Obligations.RandomIsMaskedByImmediate := by
  intro x nn s
  refine ⟨decode_encode (.rnd x nn), _, rfl, fun j => ?_, rfl, rfl, exec_unchangedExcept (.rnd x nn) rfl⟩
  rw [State.getV_setV_same, BitVec.getLsbD_and]

/-! ### A result and a flag written -/

/-- The result stands in `V[X]` unless the flag, written last, has replaced it (R76). -/
theorem State.getV_setResultThenFlag_result (s : State) {x : Reg} (hx : x ≠ VF) (r : Byte) (f : Bool) :
    (s.setResultThenFlag x r f).getV x = r := by
  rw [getV_setResultThenFlag, if_neg hx, if_pos rfl]

theorem State.getV_setResultThenFlag_flag (s : State) (x : Reg) (r : Byte) (f : Bool) :
    (s.setResultThenFlag x r f).getV VF = flagByte f := by
  rw [getV_setResultThenFlag, if_pos rfl]

theorem State.getV_setFlagThenResult_result (s : State) (x : Reg) (r : Byte) (f : Bool) :
    (s.setFlagThenResult x r f).getV x = r := by
  rw [getV_setFlagThenResult, if_pos rfl]

/-- The flag stands in `V[15]` unless the result, written last, has replaced it (R76). -/
theorem State.getV_setFlagThenResult_flag (s : State) {x : Reg} (hx : x ≠ VF) (r : Byte) (f : Bool) :
    (s.setFlagThenResult x r f).getV VF = flagByte f := by
  rw [getV_setFlagThenResult, if_neg hx.symm, if_pos rfl]

theorem flagByte_carry (a b : Byte) : flagByte (carry a b) = if 255 < a.toNat + b.toNat then 1 else 0 :=
  if_congr decide_eq_true_iff rfl rfl

/-- The no-borrow flag is 0 exactly on a borrow (R84, R86). -/
theorem flagByte_noBorrow (a b : Byte) : flagByte (noBorrow a b) = if a.toNat < b.toNat then 0 else 1 := by
  rw [← ite_not]
  exact if_congr (decide_eq_true_iff.trans Nat.not_lt.symm) rfl rfl

/-- An 8-bit difference, with the borrow of 256 where there is one (R84, R86). -/
theorem toNat_sub_eq_ite (a b : Byte) :
    (a - b).toNat = if b.toNat ≤ a.toNat then a.toNat - b.toNat else a.toNat + 256 - b.toNat := by
  have ha := a.isLt
  have hb := b.isLt
  rw [BitVec.toNat_sub]
  split <;> omega

/-- Settles O30: the sum is written first, then the carry. -/
theorem addRegistersWithCarry : Obligations.AddRegistersWithCarry := by
  intro x y s
  refine ⟨decode_encode (.addReg x y), _, rfl, fun hx => ?_, ?_, rfl, rfl, exec_unchangedExcept (.addReg x y) rfl⟩
  · rw [State.getV_setResultThenFlag_result _ hx, BitVec.toNat_add]
  · rw [State.getV_setResultThenFlag_flag, flagByte_carry]

/-- What an instruction leaves that writes the difference of `a` and `b` and then its no-borrow (R76, R84, R86). -/
theorem exec_sub_outcome {i : Instr} {s : State} {x : Reg} {a b : Byte}
    (h : exec i s = .next (s.advance.setResultThenFlag x (a - b) (noBorrow a b))) :
    ∃ t, exec i s = .next t ∧
      (x ≠ VF → (t.getV x).toNat =
        (if b.toNat ≤ a.toNat then a.toNat - b.toNat else a.toNat + 256 - b.toNat)) ∧
      t.getV VF = (if a.toNat < b.toNat then 0 else 1) ∧
      t.pc = s.pc + 2 ∧ t.waiting = false ∧ OnlyWrites [.pc, .waiting, .V x, .V VF] s t := by
  refine ⟨_, h, fun hx => ?_, ?_, rfl, rfl, ?_⟩
  · rw [State.getV_setResultThenFlag_result _ hx, toNat_sub_eq_ite]
  · rw [State.getV_setResultThenFlag_flag, flagByte_noBorrow]
  · exact unchangedExcept_of_advance ((onlyWrites_setV _ _ _).trans (onlyWrites_setV _ _ _)) (by grind)

/-- Settles O31: one subtraction, its operands in either order. -/
theorem subtractRegistersWithNoBorrow : Obligations.SubtractRegistersWithNoBorrow := fun x y _ =>
  ⟨⟨decode_encode (.subReg x y), exec_sub_outcome rfl⟩, ⟨decode_encode (.subnReg x y), exec_sub_outcome rfl⟩⟩

/-- Settles O32: the bit shifted out is written first, then the shifted value. -/
theorem shiftsCaptureTheBitShiftedOut : Obligations.ShiftsCaptureTheBitShiftedOut := by
  intro x y s
  refine ⟨⟨decode_encode (.shr x y), _, rfl, ?_, fun hx => ?_, rfl, rfl, exec_unchangedExcept (.shr x y) rfl⟩,
    ⟨decode_encode (.shl x y), _, rfl, ?_, fun hx => ?_, rfl, rfl, exec_unchangedExcept (.shl x y) rfl⟩⟩
  · rw [State.getV_setFlagThenResult_result, BitVec.toNat_ushiftRight, Nat.shiftRight_one]
  · rw [State.getV_setFlagThenResult_flag _ hx, toNat_flagByte, toNat_shiftedOutRight]
  · rw [State.getV_setFlagThenResult_result, BitVec.toNat_shiftLeft, Nat.shiftLeft_eq, Nat.mul_comm]
  · rw [State.getV_setFlagThenResult_flag _ hx, toNat_flagByte, toNat_shiftedOutLeft]

end Sys2Proof.Machine
end

section
/-! PROOFS. The index register, and the transfers between memory and registers at `I` (R90 to R96). -/

namespace Sys2Proof.Machine

/-! ### The index register -/

/-- A glyph address is at most 75, so it is exact (R92). -/
theorem toNat_glyphAddr (v : Byte) : (glyphAddr v).toNat = 5 * (v.toNat % 16) := by
  rw [glyphAddr, BitVec.toNat_ofNat]
  omega

/-- The sum `FX1E` writes is the one modulo 65536 (R91). -/
theorem toNat_add_zext16 (a : Word) (v : Byte) : (a + zext16 v).toNat = (a.toNat + v.toNat) % 65536 := by
  rw [BitVec.toNat_add, zext16, BitVec.toNat_setWidth_of_le (by decide)]

/-- Settles O35: the immediate as an address is itself. -/
theorem loadIndexImmediate : Obligations.LoadIndexImmediate := fun nnn _ =>
  ⟨decode_encode (.ldI nnn), _, rfl, toNat_addrOf nnn, rfl, rfl, exec_unchangedExcept (.ldI nnn) rfl⟩

/-- Settles O36: each answers the state advanced with `I` written. -/
theorem indexAddAndGlyphAddress : Obligations.IndexAddAndGlyphAddress := by
  intro x s
  constructor
  · exact ⟨decode_encode (.addI x), _, rfl, toNat_add_zext16 s.I (s.getV x), rfl, rfl,
      exec_unchangedExcept (.addI x) rfl⟩
  · exact ⟨decode_encode (.ldF x), _, rfl, toNat_glyphAddr (s.getV x), rfl, rfl,
      exec_unchangedExcept (.ldF x) rfl⟩

/-! ### Stores at `I` -/

/-- What `FX33` leaves at `I + k` is decimal digit `k`, hundreds first (R93). -/
theorem byteAt_storedDigits {s : State} {v : Byte} (hwf : s.memWf) (hr : indexAddr s + 3 ≤ 4096) {k : Nat}
    (hk : k < (decimalDigits v).length) :
    (s.advance.storeBytes (indexAddr s) (decimalDigits v)).byteAt (indexAddr s + k) = (decimalDigits v)[k] :=
  State.byteAt_storeBytes_in (s := s.advance) hwf hr hk

/-- Settles O37, by the two outcomes of `FX33`: byte division is that of numbers, so the bytes stored are the digits. -/
theorem storeDecimalDigits : Obligations.StoreDecimalDigits := by
  intro x s hwf
  refine ⟨decode_encode (.ldB x), ?_⟩
  rcases exec_ldB_cases x s with ⟨hr, e⟩ | ⟨hr, e⟩
  · have hdigit (k : Nat) (hk : k < 3) := byteAt_storedDigits (v := s.getV x) hwf hr hk
    refine ⟨fun _ => ⟨_, e, ?_, ?_, ?_, rfl, rfl, ?_⟩, fun h => by omega⟩
    · exact (congrArg BitVec.toNat (hdigit 0 (by decide))).trans BitVec.toNat_udiv
    · exact (congrArg BitVec.toNat (hdigit 1 (by decide))).trans
        (BitVec.toNat_umod.trans (congrArg (· % 10) BitVec.toNat_udiv))
    · exact (congrArg BitVec.toNat (hdigit 2 (by decide))).trans BitVec.toNat_umod
    · exact unchangedExcept_of_advance (unchangedExcept_storeBytes _ _ _) (fun _ he => he)
  · exact ⟨fun h => by omega, fun _ => takesFatal_of_eq_raise e⟩

/-- Settles O38, by the two outcomes of `FX55`. -/
theorem storeRegistersAtIndex : Obligations.StoreRegistersAtIndex := by
  intro x s hwf
  refine ⟨decode_encode (.storeRegs x), ?_⟩
  rcases exec_storeRegs_cases x s with ⟨hr, e⟩ | ⟨hr, e⟩
  · refine ⟨fun _ => ⟨_, e, fun i hi => byteAt_storedRegs hwf hr hi, rfl, rfl, ?_⟩, fun h => by omega⟩
    exact unchangedExcept_of_advance (unchangedExcept_storeBytes _ _ _) (by grind [length_regsUpTo])
  · exact ⟨fun h => by omega, fun _ => takesFatal_of_eq_raise e⟩

/-! ### Registers loaded from `I` -/

/-- What `FX65` leaves in `V[i]` is the byte at `I + i` (R95). -/
theorem getV_loadedRegs (s : State) {x i : Reg} (a : Nat) (hi : i ≤ x) :
    (s.advance.setVs (s.bytesAt a (x.val + 1))).getV i = s.byteAt (a + i.val) := by
  have hk : i.val < (s.bytesAt a (x.val + 1)).length := by
    rw [State.length_bytesAt]
    exact Nat.lt_succ_of_le hi
  rw [State.getV_setVs, List.getElem?_eq_getElem hk, Option.getD_some, State.getElem_bytesAt]

/-- Settles O39, by the two outcomes of `FX65`. -/
theorem loadRegistersFromIndex : Obligations.LoadRegistersFromIndex := by
  intro x s
  refine ⟨decode_encode (.loadRegs x), ?_⟩
  rcases exec_loadRegs_cases x s with ⟨hr, e⟩ | ⟨hr, e⟩
  · refine ⟨fun _ => ⟨_, e, fun i hi => getV_loadedRegs s _ hi, rfl, rfl, ?_⟩, fun h => by omega⟩
    exact unchangedExcept_of_advance (unchangedExcept_setVs _ _) (by grind [State.length_bytesAt])
  · exact ⟨fun h => by omega, fun _ => takesFatal_of_eq_raise e⟩

end Sys2Proof.Machine
end

section
/-! PROOFS. The display (R97 to R99): clearing turns every cell off; a sprite inverts exactly the cells it covers, each
of them once, and collides where it turns a cell off. -/

namespace Sys2Proof.Machine

/-! ### Clearing -/

theorem on_blankDisplay (cx : Fin 64) (cy : Fin 32) : blankDisplay.on cx cy = false := by
  simp [blankDisplay, Display.on]

/-- Settles O42: the state advanced with a blank display; the frame holds `V[15]`. -/
theorem clearTurnsEveryCellOff : Obligations.ClearTurnsEveryCellOff :=
  ⟨decode_encode .cls, fun _ => ⟨_, rfl, on_blankDisplay, rfl, rfl, exec_unchangedExcept .cls rfl⟩⟩

/-! ### What drawing on a set of cells does -/

/-- From `c` to `c'` exactly the cells of `P` are inverted, and a collision is noted iff one of them was on, besides one
noted before (R99). -/
structure Inverts (P : Fin 64 → Fin 32 → Prop) (c c' : Canvas) : Prop where
  on_of_mem : ∀ {i j}, P i j → c'.disp.on i j = !c.disp.on i j
  on_of_notMem : ∀ {i j}, ¬ P i j → c'.disp.on i j = c.disp.on i j
  hit_iff : c'.hit = true ↔ c.hit = true ∨ ∃ i j, P i j ∧ c.disp.on i j = true

section
variable {P Q : Fin 64 → Fin 32 → Prop} {c c' c'' : Canvas}

theorem Inverts.of_empty (hP : ∀ i j, ¬ P i j) (c : Canvas) : Inverts P c c :=
  ⟨fun h => absurd h (hP _ _), fun _ => rfl, by simp [hP]⟩

/-- One drawing after another that meets none of its cells. -/
theorem Inverts.trans (hc : Inverts P c c') (hc' : Inverts Q c' c'') (hPQ : ∀ i j, P i j → ¬ Q i j) :
    Inverts (fun i j => P i j ∨ Q i j) c c'' where
  on_of_mem := by
    rintro i j (hP | hQ)
    · rw [hc'.on_of_notMem (hPQ i j hP), hc.on_of_mem hP]
    · rw [hc'.on_of_mem hQ, hc.on_of_notMem (fun hP => hPQ i j hP hQ)]
  on_of_notMem := by
    intro i j h
    rw [not_or] at h
    rw [hc'.on_of_notMem h.2, hc.on_of_notMem h.1]
  hit_iff := by
    have hQ (i j) : Q i j ∧ c'.disp.on i j = true ↔ Q i j ∧ c.disp.on i j = true :=
      and_congr_right fun hQ => by rw [hc.on_of_notMem (fun hP => hPQ i j hP hQ)]
    simp only [hc'.hit_iff, hc.hit_iff, hQ, or_and_right, exists_or, or_assoc]

/-- Drawing on a canvas without a collision yet collides iff some cell goes from on to off (R99). -/
theorem Inverts.hit_iff_turned_off (hc : Inverts P c c') (h : c.hit = false) :
    c'.hit = true ↔ ∃ i j, c.disp.on i j = true ∧ c'.disp.on i j = false := by
  have hcell (i j) : P i j ∧ c.disp.on i j = true ↔ c.disp.on i j = true ∧ c'.disp.on i j = false := by
    by_cases hP : P i j
    · simp [hP, hc.on_of_mem hP]
    · simp [hP, hc.on_of_notMem hP]
  simp [hc.hit_iff, h, hcell]

end

/-! ### Where the pixels of a sprite fall -/

section
variable {edge : Config.SpriteEdge} {x y x' y' : Nat} {i : Fin 64} {j : Fin 32}

/-- The drawing's cell of a pixel is the one the pixel falls on (R99). -/
theorem spriteCell_eq_some_iff_fallsOn : spriteCell edge x y = some (i, j) ↔ FallsOn edge x y i j := by
  cases edge with
  | clip => exact spriteCell_clip_eq_some x y i j
  | wrap => exact spriteCell_wrap_eq_some x y i j

/-- With either edge, a pixel falls on no cell but that of its coordinates modulo the display. -/
theorem FallsOn.mod_eq (h : FallsOn edge x y i j) : x % 64 = i.val ∧ y % 32 = j.val := by
  cases edge with
  | clip =>
    obtain ⟨rfl, rfl⟩ := h
    exact ⟨Nat.mod_eq_of_lt i.isLt, Nat.mod_eq_of_lt j.isLt⟩
  | wrap => exact h

/-- Two pixels on one cell lie in the same column and row modulo the display. -/
theorem FallsOn.mod_eq_mod (h : FallsOn edge x y i j) (h' : FallsOn edge x' y' i j) :
    x % 64 = x' % 64 ∧ y % 32 = y' % 32 :=
  ⟨h.mod_eq.1.trans h'.mod_eq.1.symm, h.mod_eq.2.trans h'.mod_eq.2.symm⟩

end

/-- A set pixel among the first `n` of the row byte `row`, drawn from column `x0` in row `y`, falls on the cell
`(i, j)`. -/
def RowCovers (edge : Config.SpriteEdge) (x0 y : Nat) (row : Byte) (n : Nat) (i : Fin 64) (j : Fin 32) : Prop :=
  ∃ k < n, FallsOn edge (x0 + k) y i j ∧ row.getLsbD (7 - k) = true

/-- A set pixel of the sprite `rows`, drawn from column `x0` and row `y`, falls on the cell `(i, j)`. -/
def RowsCover (edge : Config.SpriteEdge) (x0 y : Nat) (rows : List Byte) (i : Fin 64) (j : Fin 32) : Prop :=
  ∃ r, ∃ h : r < rows.length, RowCovers edge x0 (y + r) rows[r] 8 i j

section
variable (edge : Config.SpriteEdge) (x0 y : Nat) (row : Byte) (rows : List Byte)

theorem rowCovers_succ (n : Nat) :
    RowCovers edge x0 y row (n + 1) = fun i j =>
      RowCovers edge x0 y row n i j ∨ (FallsOn edge (x0 + n) y i j ∧ row.getLsbD (7 - n) = true) := by
  funext i j
  exact propext Nat.exists_lt_succ_right

theorem rowsCover_cons :
    RowsCover edge x0 y (row :: rows) = fun i j =>
      RowCovers edge x0 y row 8 i j ∨ RowsCover edge x0 (y + 1) rows i j := by
  funext i j
  refine propext ⟨?_, ?_⟩
  · rintro ⟨_ | r, hr, h⟩
    · exact .inl h
    · exact .inr ⟨r, Nat.lt_of_succ_lt_succ hr, by rwa [← Nat.add_assoc, Nat.add_right_comm] at h⟩
  · rintro (h | ⟨r, hr, h⟩)
    · exact ⟨0, Nat.succ_pos _, h⟩
    · exact ⟨r + 1, Nat.succ_lt_succ hr, by rwa [Nat.add_right_comm] at h⟩

end

/-! ### Drawing, from a pixel to a sprite -/

/-- One pixel of a row inverts its cell if it is set; a 0 bit is transparent (R97, R99). -/
theorem inverts_drawPixel (edge : Config.SpriteEdge) (x y : Nat) (b : Bool) (c : Canvas) :
    Inverts (fun i j => FallsOn edge x y i j ∧ b = true) c (if b then drawPixel edge x y c else c) := by
  cases b with
  | false => exact .of_empty (by simp) c
  | true =>
    constructor
    · rintro i j ⟨h, -⟩
      exact (on_drawPixel edge x y c i j).trans (if_pos (spriteCell_eq_some_iff_fallsOn.2 h))
    · intro i j h
      exact (on_drawPixel edge x y c i j).trans
        (if_neg fun hcell => h ⟨spriteCell_eq_some_iff_fallsOn.1 hcell, rfl⟩)
    · simpa [spriteCell_eq_some_iff_fallsOn] using hit_drawPixel edge x y c

/-- The first `n` pixels of a row: no two of at most 64 lie in the same column modulo the display. -/
theorem inverts_foldl_drawPixel (edge : Config.SpriteEdge) (x0 y : Nat) (row : Byte) (c : Canvas) {n : Nat}
    (hn : n ≤ 64) :
    Inverts (RowCovers edge x0 y row n) c
      ((List.range n).foldl (fun c k => if row.getLsbD (7 - k) then drawPixel edge (x0 + k) y c else c) c) := by
  induction n with
  | zero => exact .of_empty (fun _ _ ⟨_, hk, _⟩ => Nat.not_lt_zero _ hk) c
  | succ n ih =>
    rw [List.range_succ, List.foldl_append, rowCovers_succ]
    refine (ih (by omega)).trans (inverts_drawPixel edge (x0 + n) y _ _) ?_
    rintro i j ⟨k, hk, hfalls, -⟩ ⟨hfalls', -⟩
    have hcol := (hfalls.mod_eq_mod hfalls').1
    omega

theorem inverts_drawRow (edge : Config.SpriteEdge) (x0 y : Nat) (row : Byte) (c : Canvas) :
    Inverts (RowCovers edge x0 y row 8) c (drawRow edge x0 y row c) :=
  inverts_foldl_drawPixel edge x0 y row c (by decide)

/-- At most 32 rows: no two of them are the same modulo the display. -/
theorem inverts_drawRows (edge : Config.SpriteEdge) (x0 y : Nat) {rows : List Byte} (hlen : rows.length ≤ 32)
    (c : Canvas) :
    Inverts (RowsCover edge x0 y rows) c (drawRows edge x0 y rows c) := by
  induction rows generalizing y c with
  | nil => exact .of_empty (fun _ _ ⟨_, hr, _⟩ => Nat.not_lt_zero _ hr) c
  | cons row rows ih =>
    rw [List.length_cons] at hlen
    rw [rowsCover_cons]
    refine (inverts_drawRow edge x0 y row c).trans (ih (y + 1) (by omega) _) ?_
    rintro i j ⟨k, -, hfalls, -⟩ ⟨r, hr, k', -, hfalls', -⟩
    have hrow := (hfalls.mod_eq_mod hfalls').2
    omega

/-- A sprite inverts exactly the cells it covers (R99). -/
theorem inverts_drawSprite (edge : Config.SpriteEdge) (d : Display) (vx vy : Byte) {rows : List Byte}
    (hlen : rows.length ≤ 32) :
    Inverts (RowsCover edge (vx.toNat % 64) (vy.toNat % 32) rows) ⟨d, false⟩ (drawSprite edge d vx vy rows) :=
  inverts_drawRows edge _ _ hlen _

/-! ### Wrapped sprites -/

/-- Wrapped, it makes no difference whether the start is reduced modulo the display before the offset is added. -/
theorem rowsCover_wrap_iff (vx vy : Nat) (rows : List Byte) (cx : Fin 64) (cy : Fin 32) :
    RowsCover .wrap (vx % 64) (vy % 32) rows cx cy ↔
      ∃ (r : Fin rows.length) (c : Fin 8),
        (vx + c.val) % 64 = cx.val ∧ (vy + r.val) % 32 = cy.val ∧ rows[r.val].getLsbD (7 - c.val) = true := by
  simp only [RowsCover, RowCovers, FallsOn, Nat.mod_add_mod, and_assoc, Fin.exists_iff, exists_prop]

/-- Settles O45: an inverted cell is on iff it was off, any other iff it was on. -/
theorem wrappedSpriteXorsModuloDisplay : Obligations.WrappedSpriteXorsModuloDisplay := by
  intro d vx vy rows hlen
  have hinv := inverts_drawSprite .wrap d vx vy (rows := rows) (by omega)
  refine ⟨fun cx cy => ?_, hinv.hit_iff_turned_off rfl⟩
  rw [← rowsCover_wrap_iff]
  by_cases hcov : RowsCover .wrap (vx.toNat % 64) (vy.toNat % 32) rows cx cy
  · simp [hinv.on_of_mem hcov, hcov]
  · simp [hinv.on_of_notMem hcov, hcov]

/-! ### `DXYN` -/

/-- The sprite bytes read at `I` cover the cells the sprite covers (R97). -/
theorem rowsCover_bytesAt (s : State) (x y : Reg) (n : Nat) :
    RowsCover s.params.edge ((s.getV x).toNat % 64) ((s.getV y).toNat % 32) (s.bytesAt (indexAddr s) n) =
      SpriteCovers s x y n := by
  funext cx cy
  refine propext ⟨?_, ?_⟩
  · rintro ⟨r, hr, c, hc, hfalls, hset⟩
    rw [State.getElem_bytesAt] at hset
    exact ⟨r, c, by rwa [State.length_bytesAt] at hr, hc, hfalls, hset⟩
  · rintro ⟨r, c, hr, hc, hfalls, hset⟩
    exact ⟨r, by rwa [State.length_bytesAt], c, hc, hfalls, by rwa [State.getElem_bytesAt]⟩

/-- The drawing of `DXYN` inverts exactly the cells its sprite covers: it has at most 15 rows (R97, R99). -/
theorem inverts_drw (s : State) (x y : Reg) (n : BitVec 4) :
    Inverts (SpriteCovers s x y n.toNat) ⟨s.disp, false⟩
      (drawSprite s.params.edge s.disp (s.getV x) (s.getV y) (s.bytesAt (indexAddr s) n.toNat)) := by
  rw [← rowsCover_bytesAt]
  refine inverts_drawSprite _ _ _ _ ?_
  have := n.isLt
  rw [State.length_bytesAt]
  omega

/-- The collision flag is written last, so it stands in `V[15]` (R99). -/
theorem getV_drawnState_VF (s : State) (x y : Reg) (rows : List Byte) :
    (drawnState s x y rows).getV VF = flagByte (drawSprite s.params.edge s.disp (s.getV x) (s.getV y) rows).hit :=
  State.getV_setV_same _ VF _

/-- A completed draw writes `pc`, `waiting`, the display and the flag. -/
theorem unchangedExcept_drawnState (s : State) (x y : Reg) (rows : List Byte) :
    UnchangedExcept (fun e => e ∈ [.pc, .waiting, .V VF] ∨ ∃ cx cy, e = .cell cx cy) s (drawnState s x y rows) :=
  unchangedExcept_of_advance ((unchangedExcept_setDisp _ _).trans (onlyWrites_setV _ _ _)) (by grind)

/-- Settles O43, by the two outcomes of a draw. -/
theorem drawXorsSpriteAndReportsCollision : Obligations.DrawXorsSpriteAndReportsCollision := by
  intro x y n s
  refine ⟨decode_encode (.drw x y n), ?_⟩
  have hinv := inverts_drw s x y n
  rcases exec_drw_cases x y n s with ⟨hr, e⟩ | ⟨hr, e⟩
  · refine ⟨fun _ => ⟨_, e, fun _ _ => hinv.on_of_mem, fun _ _ => hinv.on_of_notMem, fun h => ?_, fun h => ?_,
      rfl, rfl, unchangedExcept_drawnState s x y _⟩, fun _ _ => by omega⟩
    · rw [getV_drawnState_VF, (hinv.hit_iff_turned_off rfl).2 h]
      rfl
    · rw [getV_drawnState_VF, Bool.eq_false_iff.2 (mt (hinv.hit_iff_turned_off rfl).1 h)]
      rfl
  · exact ⟨fun _ => by omega, fun _ _ => takesFatal_of_eq_raise e⟩

/-! ### A sprite drawn twice -/

/-- What decides which cells a sprite covers: the edges, its place, `I` and memory. -/
theorem spriteCovers_congr {s t : State} {x y : Reg} (n : Nat) (hparams : t.params = s.params) (hI : t.I = s.I)
    (hmem : ∀ a, t.byteAt a = s.byteAt a) (hx : t.getV x = s.getV x) (hy : t.getV y = s.getV y) :
    SpriteCovers t x y n = SpriteCovers s x y n := by
  unfold SpriteCovers indexAddr
  simp only [hparams, hI, hmem, hx, hy]

/-- Settles O44: the second draw covers the cells of the first and inverts them back, so it turns off exactly those of
them that were off. -/
theorem drawTwiceRestoresDisplay : Obligations.DrawTwiceRestoresDisplay := by
  intro x y n s t hr hst hx hy
  obtain ⟨-, hdraw, -⟩ := drawXorsSpriteAndReportsCollision x y n s
  obtain ⟨t', ht', hin, hout, -, -, -, -, hframe⟩ := hdraw hr
  obtain rfl : t = t' := Host.Outcome.next.inj (hst.symm.trans ht')
  have hI : t.I = s.I := hframe .I (by simp)
  have hcovers : SpriteCovers t x y n.toNat = SpriteCovers s x y n.toNat :=
    spriteCovers_congr _ (hframe .params (by simp)) hI (fun a => hframe (.mem a) (by simp)) hx hy
  obtain ⟨-, hdraw', -⟩ := drawXorsSpriteAndReportsCollision x y n t
  obtain ⟨u, hu, hin', hout', hflag, hnoflag, -⟩ := hdraw' (by rwa [indexAddr, hI])
  rw [hcovers] at hin' hout'
  have hrestored (cx cy) : u.disp.on cx cy = s.disp.on cx cy := by
    by_cases hcov : SpriteCovers s x y n.toNat cx cy
    · rw [hin' cx cy hcov, hin cx cy hcov, Bool.not_not]
    · rw [hout' cx cy hcov, hout cx cy hcov]
  have hturned (cx cy) : t.disp.on cx cy = true ∧ u.disp.on cx cy = false ↔
      SpriteCovers s x y n.toNat cx cy ∧ s.disp.on cx cy = false := by
    rw [hrestored]
    by_cases hcov : SpriteCovers s x y n.toNat cx cy
    · simp [hcov, hin cx cy hcov]
    · simp [hcov, hout cx cy hcov]
  simp only [hturned] at hflag hnoflag
  refine ⟨u, hu, hrestored, fun h1 => ?_, hflag⟩
  by_contra hnone
  rw [hnoflag hnone] at h1
  exact absurd h1 (by decide)

end Sys2Proof.Machine
end

section
/-! PROOFS. The timer instructions, and the key wait (R101 to R105, R122). -/

namespace Sys2Proof.Machine

/-! ### Timers -/

/-- The sound is on exactly while the sound timer is not 0 (R122; log entry 21). -/
theorem soundOn_iff (s : State) : soundOn s = true ↔ s.st ≠ 0 := bne_iff_ne

/-- Settles O46: each answers the state advanced with its one register or timer written. -/
theorem timerInstructionsMoveTimers : Obligations.TimerInstructionsMoveTimers := by
  intro x s
  refine ⟨⟨decode_encode (.ldVxDt x), _, rfl, State.getV_setV_same _ x _, rfl, rfl, ?_⟩,
    ⟨decode_encode (.ldDtVx x), _, rfl, State.setDt_dt _ _, rfl, rfl, ?_⟩,
    ⟨decode_encode (.ldStVx x), _, rfl, State.setSt_st _ _, soundOn_iff _, rfl, rfl, ?_⟩⟩
  · exact exec_unchangedExcept (.ldVxDt x) rfl
  · exact exec_unchangedExcept (.ldDtVx x) rfl
  · exact exec_unchangedExcept (.ldStVx x) rfl

/-! ### The key wait -/

/-- A key number is below 256, so it is exact as a byte (R104). -/
theorem toNat_keyByte (k : Key) : (keyByte k).toNat = k.val := by
  rw [keyByte, BitVec.toNat_ofNat]
  omega

section
variable {s : State} (x : Reg)

/-- With no key to report, `FX0A` holds (R104). -/
theorem exec_ldVxK_of_lowestKey_eq_none (h : lowestKey s = none) : exec (.ldVxK x) s = .next s.hold := by
  show execLdVxK x s = _
  rw [execLdVxK, h]

/-- With a key to report, `FX0A` completes and stores it (R104). -/
theorem exec_ldVxK_of_lowestKey_eq_some {k : Key} (h : lowestKey s = some k) :
    exec (.ldVxK x) s = .next (s.advance.setV x (keyByte k)) := by
  show execLdVxK x s = _
  rw [execLdVxK, h]

end

/-- Settles O47: no key down is no key to report, and the least key down is the one reported. -/
theorem keyWaitHoldsOrStoresLeastKey : Obligations.KeyWaitHoldsOrStoresLeastKey := by
  intro x s
  refine ⟨decode_encode (.ldVxK x), fun hnone => ?_, fun k hk hleast => ?_⟩
  · have hexec := exec_ldVxK_of_lowestKey_eq_none x ((lowestKey_eq_none s).2 hnone)
    exact ⟨_, hexec, rfl, onlyWrites_hold s⟩
  · have hexec := exec_ldVxK_of_lowestKey_eq_some x ((lowestKey_eq_some s k).2 ⟨hk, hleast⟩)
    refine ⟨_, hexec, ?_, rfl, rfl, exec_unchangedExcept (.ldVxK x) hexec⟩
    rw [State.getV_setV_same, toNat_keyByte]

end Sys2Proof.Machine
end

section
/-! PROOFS. Fatal conditions (R106 to R115): what an instruction's own check does, that every step answers a next state,
that an event which takes a fatal condition changes nothing else, and that a stopped machine is frozen. -/

namespace Sys2Proof.Machine

/-! ### The own check of an instruction (R107, R108) -/

section
variable {i : Instr} {s : State}

/-- What an instruction may answer: the state it leaves when its own check passes, or the fatal condition of the check
that fails. -/
inductive CompletesOrRaises (i : Instr) (s : State) : Host.Outcome State Fault Refusal → Prop where
  | completes {t : State} (hfault : t.fault = s.fault) (hstack : ¬ RaisesStack i s) (hoob : ¬ RaisesOob i s) :
      CompletesOrRaises i s (.next t)
  | stack (h : RaisesStack i s) : CompletesOrRaises i s (.next (s.raise .stack))
  | oob (h : RaisesOob i s) : CompletesOrRaises i s (.next (s.raise .oob))

/-- No instruction checks both the stack and a range of memory. -/
theorem not_raisesOob_of_raisesStack (h : RaisesStack i s) : ¬ RaisesOob i s := by
  rcases h with ⟨nnn, rfl, -⟩ | ⟨rfl, -⟩ <;> simp [RaisesOob]

/-- An instruction that checks a range of memory and nothing else completes where the range fits and raises `OOB` where
it does not. -/
theorem completesOrRaises_of_range {P : Prop} {t : State}
    (h : (P ∧ exec i s = .next t) ∨ (¬ P ∧ exec i s = .next (s.raise .oob))) (hfault : t.fault = s.fault)
    (hstack : ¬ RaisesStack i s) (hoob : RaisesOob i s ↔ ¬ P) : CompletesOrRaises i s (exec i s) := by
  rcases h with ⟨hP, e⟩ | ⟨hP, e⟩ <;> rw [e]
  · exact .completes hfault hstack (fun h => hoob.1 h hP)
  · exact .oob (hoob.2 hP)

end

/-- Every instruction completes exactly where R107 and R108 name no condition, and otherwise raises the condition they
name. -/
theorem completesOrRaises_exec (i : Instr) (s : State) : CompletesOrRaises i s (exec i s) := by
  cases i with
  | ret =>
    rcases exec_ret_cases s with ⟨hsp, _, e⟩ | ⟨hsp, e⟩ <;> rw [e]
    · exact .completes rfl (by grind [RaisesStack]) (by simp [RaisesOob])
    · exact .stack (.inr ⟨rfl, hsp⟩)
  | call nnn =>
    rcases exec_call_cases nnn s with ⟨hsp, e⟩ | ⟨hsp, e⟩ <;> rw [e]
    · exact .completes rfl (by grind [RaisesStack]) (by simp [RaisesOob])
    · exact .stack (.inl ⟨nnn, rfl, hsp⟩)
  | drw x y n =>
    exact completesOrRaises_of_range (exec_drw_cases x y n s) rfl (by simp [RaisesStack])
      (by grind [RaisesOob, indexAddr])
  | ldB x =>
    exact completesOrRaises_of_range (exec_ldB_cases x s) rfl (by simp [RaisesStack])
      (by grind [RaisesOob, indexAddr])
  | storeRegs x =>
    exact completesOrRaises_of_range (exec_storeRegs_cases x s) rfl (by simp [RaisesStack])
      (by grind [RaisesOob, indexAddr])
  | loadRegs x =>
    exact completesOrRaises_of_range (exec_loadRegs_cases x s) rfl (by simp [RaisesStack])
      (by grind [RaisesOob, indexAddr])
  | ldVxK x =>
    rcases exec_ldVxK_cases x s with ⟨-, e⟩ | ⟨k, -, e⟩ <;> rw [e] <;>
      exact .completes rfl (by simp [RaisesStack]) (by simp [RaisesOob])
  | seImm | sneImm | seReg | sneReg | skp | sknp =>
    exact .completes (State.skipIf_fault s.advance _) (by simp [RaisesStack]) (by simp [RaisesOob])
  | nop | cls | jp | ldImm | addImm | ldReg | orReg | andReg | xorReg | addReg | subReg | shr | subnReg | shl
  | ldI | jpV0 | rnd | ldVxDt | ldDtVx | ldStVx | addI | ldF =>
    exact .completes rfl (by simp [RaisesStack]) (by simp [RaisesOob])

/-- The fatal condition an instruction takes in a running machine, exactly (R107, R108). -/
theorem exec_fault_iff {s : State} (i : Instr) (hf : s.fault = .none) :
    ∃ t, exec i s = .next t ∧
      (t.fault = .stack ↔ RaisesStack i s) ∧ (t.fault = .oob ↔ RaisesOob i s) ∧
      (t.fault = .none ↔ ¬ RaisesStack i s ∧ ¬ RaisesOob i s) := by
  generalize exec i s = o, completesOrRaises_exec i s = h
  cases h with
  | completes hfault hstack hoob => exact ⟨_, rfl, by simp [hfault, hf, hstack, hoob]⟩
  | stack h => exact ⟨_, rfl, by simp [h, not_raisesOob_of_raisesStack h]⟩
  | oob h =>
    have hstack : ¬ RaisesStack i s := fun hstack => not_raisesOob_of_raisesStack hstack h
    exact ⟨_, rfl, by simp [h, hstack]⟩

/-! ### The CPU tick (R112) -/

/-- A running machine takes `BADOP` where the word it fetches is in the illegal space (R52, R109). -/
theorem cpuTick_eq_raise_badop {s : State} (rnd : Byte) (hf : s.fault = .none) (hpc : s.pc.toNat ≤ 4094)
    (hill : IllegalOpcode (opcodeOf (s.byteAt s.pc.toNat) (s.byteAt (s.pc.toNat + 1)))) :
    cpuTick rnd s = .next (s.raise .badop) := by
  have hd := (illegalSpaceIsExactlyRejected _).1 hill
  rcases cpuTick_cases rnd s with ⟨h, -⟩ | ⟨-, h, -⟩ | ⟨-, -, -, e⟩ | ⟨-, -, i, hi, -⟩
  · exact absurd hf h
  · omega
  · exact e
  · rw [hd] at hi
    cases hi

/-- Settles O8, check by check: the fetch, the decode, and what the instruction may answer. -/
theorem cpuTickTakesExactlyTheseFatals : Obligations.CpuTickTakesExactlyTheseFatals := by
  rintro rnd s _ hf rfl
  refine ⟨fun hpc => ?_, fun hpc hill => ?_, fun hpc i hd => ?_⟩
  · exact takesFatal_of_eq_raise (cpuTick_eq_raise_oob rnd hf (Nat.le_of_lt_succ hpc))
  · exact takesFatal_of_eq_raise (cpuTick_eq_raise_badop rnd hf (Nat.le_of_succ_le_succ hpc) hill)
  · rw [cpuTick_eq_exec hf (Nat.le_of_succ_le_succ hpc) hd]
    exact exec_fault_iff (s := { s with rnd := rnd }) i hf

/-! ### Every step answers a next state (R113, R114) -/

/-- Settles O11: what ignores the host answers a next state, and instructions and events do. -/
theorem everyStepAnswersNext : Obligations.EveryStepAnswersNext := by
  refine ⟨fun i s => ?_, fun s => ?_⟩
  · obtain ⟨t, ht, -⟩ := ignoresHost_exec i s
    exact ⟨t, ht⟩
  · obtain ⟨t, ht, -⟩ := ignoresHost_handleEvent (takeNext s).1 (takeNext s).2
    exact ⟨t, ht⟩

/-! ### A stopped machine (R113) -/

/-- A stopped machine takes every event but reset without effect. -/
theorem handleEvent_of_stopped {e : HostEvent} {s : State} (hf : s.fault ≠ .none) (he : e ≠ .reset) :
    handleEvent e s = .next s := by
  have hstopped := (stopped_iff s).2 hf
  cases e with
  | reset => exact absurd rfl he
  | loadImage | keySet | cpuTick | timerTick => exact if_pos hstopped
  | displayRead => rfl

/-- Settles O10: in each clause the event taken leaves the state it is taken from. -/
theorem stoppedMachineIsFrozen : Obligations.StoppedMachineIsFrozen := by
  intro s hf
  refine ⟨fun e rest hq he => ?_, fun hq hi => ?_, fun e others hq hi he => ?_⟩
  · rw [step_of_inbox_cons hq]
    exact handleEvent_of_stopped (s := { s with inbox := rest }) hf he
  · rw [step_of_cpuTicks hq hi]
    exact handleEvent_of_stopped (e := .cpuTick _) (s := { s with draws := s.draws + 1 }) hf (by simp)
  · rw [step_of_repeats hq hi]
    exact handleEvent_of_stopped (s := { s with inbox := others }) hf he

/-! ### The commit rule (R111) -/

theorem onlyWrites_rnd (s : State) (r : Byte) : OnlyWrites [.rnd] s { s with rnd := r } := by
  intro e he
  cases e with
  | rnd => exact absurd (List.mem_singleton_self _) he
  | _ => rfl

/-- An instruction that changes `fault` changes nothing else. -/
theorem onlyWrites_fault_of_exec {i : Instr} {s t : State} (h : exec i s = .next t) (hfault : t.fault ≠ s.fault) :
    OnlyWrites [.fault] s t := by
  have hexec := completesOrRaises_exec i s
  rw [h] at hexec
  cases hexec with
  | completes hkeep => exact absurd hkeep hfault
  | stack => exact onlyWrites_raise s .stack
  | oob => exact onlyWrites_raise s .oob

/-- A CPU tick that changes `fault` changes nothing else but the byte it samples. -/
theorem onlyWrites_fault_rnd_of_cpuTick {rnd : Byte} {s t : State} (h : cpuTick rnd s = .next t)
    (hfault : t.fault ≠ s.fault) : OnlyWrites [.fault, .rnd] s t := by
  rcases cpuTick_cases rnd s with ⟨-, e⟩ | ⟨-, -, e⟩ | ⟨-, -, -, e⟩ | ⟨-, -, i, -, e⟩ <;> rw [e] at h
  · cases h
    exact absurd rfl hfault
  · cases h
    exact (onlyWrites_raise s .oob).mono (by simp)
  · cases h
    exact (onlyWrites_raise s .badop).mono (by simp)
  · exact ((onlyWrites_rnd s rnd).trans (onlyWrites_fault_of_exec h hfault)).mono (by simp)

/-- `load_image` that changes `fault` changes nothing else. -/
theorem onlyWrites_fault_of_loadImage {bytes : List Byte} {s t : State} (h : handleLoadImage bytes s = .next t)
    (hfault : t.fault ≠ s.fault) : OnlyWrites [.fault] s t := by
  rcases handleLoadImage_cases bytes s with ⟨-, e⟩ | ⟨-, -, e⟩ | ⟨-, -, e⟩ <;> (rw [e] at h; cases h)
  · exact absurd rfl hfault
  · exact absurd rfl hfault
  · exact onlyWrites_raise s .load

/-- Settles O9: a stopped machine takes no fatal condition, and of the events of a running one only a CPU tick and
`load_image` can. -/
theorem fatalEventChangesOnlyFault : Obligations.FatalEventChangesOnlyFault := by
  intro e s t he h hfault
  have hf : s.fault = .none := by
    by_contra hf
    rw [handleEvent_of_stopped hf he] at h
    cases h
    exact hfault rfl
  refine ⟨hf, ?_⟩
  cases e with
  | reset => exact absurd rfl he
  | loadImage bytes => exact (onlyWrites_fault_of_loadImage h hfault).mono (by simp)
  | cpuTick rnd => exact onlyWrites_fault_rnd_of_cpuTick h hfault
  | keySet | timerTick =>
    rcases eq_or_of_unlessStopped h with rfl | h
    · exact absurd rfl hfault
    · cases h
      exact absurd rfl hfault
  | displayRead =>
    cases h
    exact absurd rfl hfault

end Sys2Proof.Machine
end

section
/-! PROOFS. The host events other than the CPU tick and `load_image` (R118 to R121, R127), and a run after reset without
a program (R130). -/

namespace Sys2Proof.Machine

/-! ### Reset (R127) -/

/-- Settles O13: the reset event leaves the elements of the state after reset with the parameters of this machine. -/
theorem resetEventRestoresFromAnyState : Obligations.ResetEventRestoresFromAnyState := by
  intro s rest hq
  exact ⟨_, step_of_inbox_cons hq, atReset_resetWith s.params, rfl, rfl⟩

/-! ### Keys (R120) -/

theorem onlyWrites_setKey (s : State) (k : Key) (v : Bool) : OnlyWrites [.key k] s (s.setKey k v) := by
  intro e he
  cases e with
  | key j => exact (State.keys_setKey s k j v).trans (if_neg (fun hj => he (by simp [hj])))
  | _ => rfl

/-- `key_set` in a running machine sets the level of the key (R120). -/
theorem handleKeySet_of_running {s : State} (hf : s.fault = .none) (k : Key) (v : Bool) :
    handleKeySet k v s = .next (s.setKey k v) := by
  rw [handleKeySet, stopped_eq_false hf]
  rfl

/-- Settles O15: a running machine has the one level set, a stopped one takes the event without effect. -/
theorem keySetSetsOneKey : Obligations.KeySetSetsOneKey := by
  intro s k v rest hq
  have htaken := onlyWrites_inbox s rest
  rw [step_of_inbox_cons hq]
  by_cases hf : s.fault = .none
  · refine ⟨_, handleKeySet_of_running (s := { s with inbox := rest }) hf k v, rfl, ?_, fun _ => ?_,
      fun h => absurd hf h⟩
    · exact (htaken.trans (onlyWrites_setKey _ k v)).mono (by grind)
    · exact (State.keys_setKey _ k k v).trans (if_pos rfl)
  · refine ⟨_, handleEvent_of_stopped (e := .keySet k v) (s := { s with inbox := rest }) hf (by simp), rfl,
      htaken.mono (by simp), fun h => absurd h hf, fun _ => rfl⟩

/-! ### Timers (R118, R119) -/

theorem toNat_countDown (t : Byte) : (countDown t).toNat = t.toNat - 1 := by
  unfold countDown
  split
  next h => simp [h]
  next h => bv_omega

theorem toNat_countDown_iterate (n : Nat) (t : Byte) : (countDown^[n] t).toNat = t.toNat - n := by
  induction n with
  | zero => rfl
  | succ n ih => rw [Function.iterate_succ_apply', toNat_countDown, ih, Nat.sub_sub]

section
variable {s : State}

theorem afterEvent_of_stopped {e : HostEvent} (hf : s.fault ≠ .none) (he : e ≠ .reset) : afterEvent s e = s := by
  rw [afterEvent, handleEvent_of_stopped hf he]

theorem afterEvent_timerTick_of_running (hf : s.fault = .none) :
    afterEvent s .timerTick = (s.setDt (countDown s.dt)).setSt (countDown s.st) := by
  rw [afterEvent, handleEvent, handleTimerTick, stopped_eq_false hf]
  rfl

/-- Timer ticks in a row, in a running machine, count each timer down as often. -/
theorem foldl_timerTick_of_running (n : Nat) (hf : s.fault = .none) :
    (List.replicate n .timerTick).foldl afterEvent s = (s.setDt (countDown^[n] s.dt)).setSt (countDown^[n] s.st) := by
  induction n generalizing s with
  | zero => rfl
  | succ n ih =>
    rw [List.replicate_succ, List.foldl_cons, afterEvent_timerTick_of_running hf]
    exact ih hf

theorem foldl_timerTick_of_stopped (n : Nat) (hf : s.fault ≠ .none) :
    (List.replicate n .timerTick).foldl afterEvent s = s := by
  induction n with
  | zero => rfl
  | succ n ih => rw [List.replicate_succ, List.foldl_cons, afterEvent_of_stopped hf (by simp), ih]

end

/-- Settles O14: the run over the queued ticks is the fold of `afterEvent` over them, beside the host that holds the
rest. -/
theorem timerTicksCountDownToZero : Obligations.TimerTicksCountDownToZero := by
  intro n s rest hq
  have hrun := run_queued 0 (List.replicate n .timerTick) rest s (h := s) hq
  rw [List.length_replicate, Nat.add_zero] at hrun
  refine ⟨_, hrun, rfl, ?_⟩
  by_cases hf : s.fault = .none
  · rw [foldl_timerTick_of_running n hf]
    refine ⟨?_, fun _ => ⟨toNat_countDown_iterate n s.dt, toNat_countDown_iterate n s.st⟩, fun h => absurd hf h⟩
    have hcounted := (onlyWrites_setDt s (countDown^[n] s.dt)).trans (onlyWrites_setSt _ (countDown^[n] s.st))
    exact (hcounted.trans (onlyWrites_inbox _ rest)).mono (by simp [or_assoc])
  · rw [foldl_timerTick_of_stopped n hf]
    exact ⟨(onlyWrites_inbox s rest).mono (by simp), fun h => absurd h hf, fun _ => ⟨rfl, rfl⟩⟩

/-! ### Reading the display (R121) -/

/-- The cells read are the rows of the display one after the other. -/
theorem displayCells_eq_flatten (s : State) : displayCells s = s.disp.flatten.toList := by
  simp only [displayCells, List.flatMap_def, Vector.flatten, Vector.toList_mk, Array.toList_flatten, Array.toList_map,
    List.map_map]
  rfl

/-- Settles O17: the rows have 64 cells each, so cell `x` of row `y` stands at `y * 64 + x`. -/
theorem displayReadIsRowMajor : Obligations.DisplayReadIsRowMajor := by
  intro s
  rw [displayCells_eq_flatten]
  refine ⟨fun rest hq => step_of_inbox_cons hq, Vector.length_toList, fun x y => ?_⟩
  have hrow : (y.val * 64 + x.val) / 64 = y.val := by omega
  have hcol : (y.val * 64 + x.val) % 64 = x.val := by omega
  have hcell : y.val * 64 + x.val < 32 * 64 := by omega
  rw [Vector.getElem?_toList, Vector.getElem?_eq_getElem hcell, Vector.getElem_flatten]
  simp only [hrow, hcol]
  rfl

/-! ### Ticking after reset without a program (R130) -/

/-- A run of one step more ends with a step. -/
theorem run_succ_of_run {k : Nat} {s t : State} (h : Host.Core.run Sys2Proof.core k s = .next t) :
    Host.Core.run Sys2Proof.core (k + 1) s = step t := by
  induction k generalizing s with
  | zero =>
    obtain ⟨u, hs⟩ := everyStepAnswersNext.2 s
    rw [run_succ_of_step 0 hs]
    cases h
    exact hs.symm
  | succ k ih =>
    obtain ⟨u, hs⟩ := everyStepAnswersNext.2 s
    rw [run_succ_of_step _ hs] at h ⊢
    exact ih h

/-- Above the font copy memory is zero after reset (R28). -/
theorem byteAt_reset_eq_zero {a : Nat} (hlo : 512 ≤ a) (hhi : a ≤ 4095) : State.reset.byteAt a = 0 := by
  obtain ⟨-, hzero, -⟩ := atReset_resetWith defaultParams
  exact hzero a (by omega) hhi

/-- Settles O55: memory is zero from 512 to its end, and runs as no-operations from a machine that is not waiting. -/
theorem tickingWithoutProgramEndsAt4096 : Obligations.TickingWithoutProgramEndsAt4096 := by
  have hpc : State.reset.pc.toNat = 512 := rfl
  have hzero (k : Nat) (hk : k ≤ 1792) (a : Nat) (hlo : State.reset.pc.toNat ≤ a)
      (hhi : a < State.reset.pc.toNat + 2 * k) : State.reset.byteAt a = 0 :=
    byteAt_reset_eq_zero (by omega) (by omega)
  constructor
  · intro k hk
    obtain ⟨t, hrun, hpct, hframe, hw⟩ := run_zero_bytes k rfl rfl rfl (by omega) (hzero k hk)
    refine ⟨t, hrun, hpct, fun e he => ?_⟩
    by_cases hwait : e = .waiting
    · subst hwait
      exact hw (.inr rfl)
    · exact hframe e (by simp_all)
  · have htop : State.reset.pc.toNat + 2 * 1792 = 4096 := by rw [hpc]
    obtain ⟨t, hrun, hpct, -, -, hlast⟩ :=
      zeroedMemoryRunsAsNoOperations 1792 State.reset rfl rfl rfl (by omega) (hzero 1792 le_rfl)
    obtain ⟨u, hu, hpcu, hoob⟩ := hlast htop
    exact ⟨u, (run_succ_of_run hrun).trans hu, (congrArg BitVec.toNat hpcu).trans (hpct.trans htop), hoob⟩

end Sys2Proof.Machine
end
